-- ==== Sys2Proof/Word.lean ====
section
/-!
DEFINITION. The three widths of the engine (spec rules R11, R13): a byte has 8 bits, a word 32, the bit counter and
the length operand 64. Every value is unsigned.
-/

namespace Sys2Proof

/-- A byte (R11, R13). -/
abbrev Byte := BitVec 8

/-- A word of the datapath: 32 bits, unsigned, addition modulo 2^32 (R11, R13, R15, R104 (a)). -/
abbrev Word := BitVec 32

/-- A 64-bit unsigned number: the counter `bitCount` (R21) and the length operand of UPDATE (`LENW` = 64, R12, R62). -/
abbrev Count := BitVec 64

/-- A Block: "exactly 64 bytes; the unit of compression" (R69). -/
abbrev Block := Vector Byte 64

/-- A Schedule: the 64 words `W[0..63]` (R25). -/
abbrev Schedule := Vector Word 64

/-- The State of the hash: the 8 words `H[0..7]` (R20). -/
abbrev HashState := Vector Word 8

/-- A Digest: 32 bytes, `dout[0]` first (R70). -/
abbrev Digest := Vector Byte 32

end Sys2Proof
end

