-- ==== Sys2Proof/Config.lean ====
section
/-!
DEFINITION. What the spec leaves open, as constants without a body: no proof can learn a value of theirs, so a claim
that holds in the model holds whatever the hardware leaves there. The first argument of each is the number of the
draw (`State.draws`, the model's own counter), so that two draws need not agree. Log entries 6, 7, 8, 15 and 16 name
them.
-/

namespace Sys2Proof.Config

/-- `H` where the spec leaves it unspecified: after FINAL (R114) and after a hardware reset (R165). -/
opaque freeH : Nat → HashState

/-- `bitCount` where the spec leaves it unspecified: after FINAL (R114) and after a hardware reset (R165). -/
opaque freeBitCount : Nat → Count

/-- `buf` where the spec leaves it unspecified: after FINAL (R114) and after a hardware reset (R165). -/
opaque freeBuf : Nat → Vector Byte 64

/-- `dout` once a further command has been accepted (R30) and after a hardware reset (R165). -/
opaque freeDout : Nat → Digest

/-- The local 64-byte block of the scratch space between commands (R35 (b)). -/
opaque freeBlock : Nat → Block

/-- The Schedule words of the scratch space between commands (R25, R35 (b)). -/
opaque freeSchedule : Nat → Schedule

/-- The eight working variables of the scratch space between commands (R24, R35 (b)); the second argument
is 0 for `a` to 7 for `h`. -/
opaque freeWorking : Nat → Nat → Word

/-- The round index between commands: a loop variable of one command, no state between commands (R31). -/
opaque freeRoundIndex : Nat → Fin 64

/-- `OVERREAD(n)[j]`: the byte `j` places after the 32 digest bytes in the host's storage, read by DOUBLEHASH of a
message of `n > 32` bytes (R12, R139). Arguments: the draw, `n`, `j`. -/
opaque overread : Nat → Nat → Nat → Byte

end Sys2Proof.Config
end

