-- ==== Sys2Proof/Syntax.lean ====
section
/-!
DEFINITION. The operations of the engine, one constructor per row of spec/opcode_table.json (R61), and what stands on
the engine's input ports.
-/

namespace Sys2Proof

/-- One operation of the engine (R61, R76). `init`, `update` and `final` are the host commands; `sched`, `round`,
`compress` and `pad` are the internal operations, whose operands are not encoded but are "the values the enclosing
command holds at that point" (R64): the scratch registers and the Context of `Machine.State`. -/
inductive Instr where
  /-- INIT, command byte `0x00`, no operand (R120). -/
  | init
  /-- UPDATE, command byte `0x01` (R122, R124). `data` is the operand `data[0 .. len-1]`, `data[0]` first; the operand
  `len` is the number of its bytes, `Instr.len`: the spec gives "exactly `len` bytes" (R62), so the two cannot differ. -/
  | update (data : List Byte)
  /-- FINAL, command byte `0x02`, no operand (R112). -/
  | final
  /-- SCHED, internal label `0x08` (R84). -/
  | sched
  /-- ROUND, internal label `0x09` (R96). -/
  | round
  /-- COMPRESS, internal label `0x0A` (R98). -/
  | compress
  /-- PAD, internal label `0x0B` (R110). -/
  | pad
  deriving DecidableEq, Repr

/-- The length operand of a command as a number of bytes (R62): only UPDATE has one. -/
def Instr.len : Instr → Nat
  | .init => 0
  | .update data => data.length
  | .final => 0
  | .sched => 0
  | .round => 0
  | .compress => 0
  | .pad => 0

/-- What the host has put on the engine's input ports and the engine has not yet consumed (R33): command bytes, length
operands and data bytes, each port in the order presented. `R52`: where these ports sit, and how they are signalled,
is left open (`HANDSHAKE`). -/
structure Ports where
  /-- The command bytes `cmd`, first to be executed first. -/
  cmd : List Byte
  /-- The length operands `len` of the UPDATEs among those commands. -/
  len : List Count
  /-- The data operands `data`, one stream of bytes. -/
  data : List Byte
  deriving DecidableEq, Repr

/-- Nothing presented. -/
def Ports.empty : Ports := ⟨[], [], []⟩

/-- The items of `p` presented before those of `q`. -/
def Ports.append (p q : Ports) : Ports := ⟨p.cmd ++ q.cmd, p.len ++ q.len, p.data ++ q.data⟩

end Sys2Proof
end

