-- ==== Sys2Proof/WellFormed.lean ====
section
/-!
DEFINITION. Which operations the command format can carry.
-/

namespace Sys2Proof

/-- The length operand has `LENW` = 64 bits (R12, R62), so an UPDATE carries fewer than 2^64 bytes. Nothing else in
the format restricts an operand: "each byte any value 0 to 255" (R62), and the other operations have none. -/
def Instr.wellFormed (i : Instr) : Bool := decide (i.len < 2 ^ 64)

end Sys2Proof
end

