-- ==== Sys2Proof/Decode.lean ====
section
/-!
DEFINITION. The command decoder and encoder (R60 to R68). A command is one byte, `zero` in bits 7:4 and `op` in bits
3:0; UPDATE's operands travel beside it. `decode` reads the code space of R61, in which all seven operations have a
code; `portDecode` is the decoder of the command port, which takes three of them and treats the labels of the internal
operations "exactly as reserved encodings" (R64, R68).
-/

namespace Sys2Proof

/-- What a decoder finds on the ports. -/
inductive Decoded where
  /-- No command byte is presented. -/
  | idle
  /-- A command byte that has no meaning (R65). -/
  | reserved (cmd : Byte)
  /-- UPDATE whose length operand is not yet presented. -/
  | awaitLen
  /-- UPDATE whose length operand is `len` and whose data bytes are not all presented yet. -/
  | awaitData (len : Count)
  /-- A whole command, and what stands on the ports behind it. -/
  | command (i : Instr) (rest : Ports)
  deriving DecidableEq, Repr

/-- The field `zero`, bits 7:4 of the command byte (R60). -/
def zeroField (cmd : Byte) : BitVec 4 := cmd.extractLsb' 4 4

/-- The field `op`, bits 3:0 of the command byte (R60). -/
def opField (cmd : Byte) : BitVec 4 := cmd.extractLsb' 0 4

/-- UPDATE's operands (R67): "takes `len` and then `len` data bytes". `cmds` is what follows the command byte. -/
def decodeUpdate (cmds : List Byte) (lens : List Count) (data : List Byte) : Decoded :=
  match lens with
  | [] => .awaitLen
  | len :: lens' =>
    if data.length < len.toNat then .awaitData len
    else .command (.update (data.take len.toNat)) ⟨cmds, lens', data.drop len.toNat⟩

/-- The code space (R61, all seven rows): one byte is read and looked up; "for every other code it takes nothing
more" (R67). Total on any bytes; every byte outside the table is rejected as `reserved`. -/
def decode (p : Ports) : Decoded :=
  match p.cmd with
  | [] => .idle
  | cmd :: cmds =>
    if zeroField cmd ≠ 0#4 then .reserved cmd
    else
      match (opField cmd).toNat with
      | 0 => .command .init ⟨cmds, p.len, p.data⟩
      | 1 => decodeUpdate cmds p.len p.data
      | 2 => .command .final ⟨cmds, p.len, p.data⟩
      | 8 => .command .sched ⟨cmds, p.len, p.data⟩
      | 9 => .command .round ⟨cmds, p.len, p.data⟩
      | 10 => .command .compress ⟨cmds, p.len, p.data⟩
      | 11 => .command .pad ⟨cmds, p.len, p.data⟩
      | _ => .reserved cmd

/-- The command byte, or label, of an operation (R61). -/
def opcode : Instr → Byte
  | .init => 0x00#8
  | .update _ => 0x01#8
  | .final => 0x02#8
  | .sched => 0x08#8
  | .round => 0x09#8
  | .compress => 0x0A#8
  | .pad => 0x0B#8

/-- Is the operation accepted at the command port (R64, R65)? -/
def isHostCommand : Instr → Bool
  | .init => true
  | .update _ => true
  | .final => true
  | .sched => false
  | .round => false
  | .compress => false
  | .pad => false

/-- The decoder of the command port (R68): INIT, UPDATE, FINAL, and everything else reserved, the labels of the
internal operations included (R64). -/
def portDecode (p : Ports) : Decoded :=
  match decode p with
  | .command i rest => if isHostCommand i then .command i rest else .reserved (opcode i)
  | .idle => .idle
  | .reserved cmd => .reserved cmd
  | .awaitLen => .awaitLen
  | .awaitData len => .awaitData len

/-- The encoder: the command byte and, for UPDATE, the operand pair `len`, `data` (R61, R62, R74). For an UPDATE that is not
well-formed (2^64 bytes or more, outside the domain of R8 and R62) the `len` written is the number of bytes modulo 2^64,
with all the bytes on the data port: DESIGN CHOICE, unsafe (log entry 21). -/
def encode : Instr → Ports
  | .init => ⟨[opcode .init], [], []⟩
  | .update data => ⟨[opcode (.update data)], [BitVec.ofNat 64 data.length], data⟩
  | .final => ⟨[opcode .final], [], []⟩
  | .sched => ⟨[opcode .sched], [], []⟩
  | .round => ⟨[opcode .round], [], []⟩
  | .compress => ⟨[opcode .compress], [], []⟩
  | .pad => ⟨[opcode .pad], [], []⟩

/-- The ports that hold the command byte `w` and operands of zeros: a length operand 0 (so no data byte). -/
def tableWordPorts (w : Nat) : Ports := ⟨[BitVec.ofNat 8 w], [0#64], []⟩

/-- What the decoder reads from a row of spec/opcode_table.json: every command is exactly one byte (R60, R67), so a
row of another width is no command; the operands, to which the table gives no bits, are zeros. -/
def decodeTableWord (nbits w : Nat) : Option Instr :=
  if nbits = 8 then
    match decode (tableWordPorts w) with
    | .command i _ => some i
    | .idle => none
    | .reserved _ => none
    | .awaitLen => none
    | .awaitData _ => none
  else none

end Sys2Proof
end

