-- ==== Sys2Proof/Machine/State.lean ====
section
/-!
DEFINITION. The state of one engine instance (10_state.md), the reasons a step can stop, and the state after reset.
-/

namespace Sys2Proof.Machine

/-- The lifecycle variable `phase` (R29). -/
inductive Phase where
  /-- After reset, before any INIT. -/
  | uninit
  /-- Between INIT and FINAL. -/
  | active
  /-- After FINAL. -/
  | finalized
  deriving DecidableEq, Repr

/-- The block buffer `buf[0..63]` (R22, R45): an array of exactly 64 bytes. Every address of the space exists and
holds a byte, and no other address exists, so equal buffers are equal data by the type alone. -/
abbrev Memory := Vector Byte 64

/-- The eight working variables `a..h` (R24). -/
structure Working where
  a : Word
  b : Word
  c : Word
  d : Word
  e : Word
  f : Word
  g : Word
  h : Word
  deriving DecidableEq, Repr

/-- The scratch space of the datapath (R35 (b): "64-byte block, 72-word scratch space"): the operands and results of
the internal operations while a command runs. Between commands it holds free values (`Ops.scrambleScratch`, log entry 7). -/
structure Scratch where
  /-- The Block being built by PAD or compressed by COMPRESS. -/
  blk : Block
  /-- The Schedule `W[0..63]` (R25). -/
  w : Schedule
  /-- The working variables `a..h` (R24). -/
  work : Working
  /-- The round index `i`, 0 to 63 (R31 (b)). -/
  round : Fin 64
  deriving DecidableEq, Repr

/-- The hardware reset input (R165: "Reset may be applied at any time"). -/
inductive ResetLine where
  /-- Not applied. -/
  | released
  /-- Applied between two commands. -/
  | applied
  /-- Applied while the command standing first on the ports is in progress: that command is lost (R165). -/
  | appliedInCommand
  deriving DecidableEq, Repr

/-- One engine instance (R36) and its ports. -/
structure State where
  /-- The lifecycle variable (R29). -/
  phase : Phase
  /-- The State `H[0..7]` (R20). -/
  h : HashState
  /-- The bit counter `bitCount` (R21). -/
  bitCount : Count
  /-- The block buffer `buf[0..63]` (R22). -/
  buf : Memory
  /-- The digest output `dout[0..31]` (R30). -/
  dout : Digest
  /-- The scratch space: local block, `W`, `a..h`, round index (R24, R25, R31, R35). -/
  scratch : Scratch
  /-- The input ports `cmd`, `len`, `data` (R33): what the host has presented and the engine has not consumed. -/
  ports : Ports
  /-- The hardware reset input (R165). -/
  resetLine : ResetLine
  /-- The digests handed to the host so far, in order: the observable outcome of a run (R176). Model's own record. -/
  outcome : List Digest
  /-- How many free values have been drawn: the argument of the constants of `Config`. Model's own counter. -/
  draws : Nat
  deriving DecidableEq, Repr

/-- "The engine raises no exception, trap or error report of any kind; the set of exception causes is empty" (R145).
So there is no fault, and the type says so: no step can answer one. -/
inductive Fault where
  deriving DecidableEq, Repr

/-- Where the spec gives a command no meaning (`refuse(name)`, R146, R148). Every refusal is SAFE: the run ends, so
nothing can be claimed of it, where the hardware would do something the spec does not say. -/
inductive Refusal where
  /-- Raised by exec's arm of an instruction that has no meaning yet (none is left in this model). Safe. -/
  | notModelled (mnemonic : String)
  /-- Raised by UPDATE when `phase` is not ACTIVE (R146, R122). Safe. -/
  | updateOutsideLifecycle
  /-- Raised by FINAL when `phase` is not ACTIVE (R146, R112). Safe. -/
  | finalOutsideLifecycle
  /-- Raised by UPDATE when `bitCount + 8 * len` would reach 2^64 (R146, R126). Safe. -/
  | bitcountOverflow
  /-- Raised by the command port on every byte other than `0x00`, `0x01`, `0x02` (R146, R65, R147). Safe. -/
  | reservedCommand
  deriving DecidableEq, Repr

/-- The outcomes of one operation or one step of this machine. -/
abbrev Outcome := Host.Outcome State Fault Refusal

/-- The scratch space at reset: zeros. DESIGN CHOICE, unsafe (log entry 4): the spec says "unspecified" (R37). -/
def Scratch.reset : Scratch where
  blk := Vector.replicate 64 0#8
  w := Vector.replicate 64 0#32
  work := ⟨0#32, 0#32, 0#32, 0#32, 0#32, 0#32, 0#32, 0#32⟩
  round := 0

/-- The machine right after reset (R37, R165): `phase = UNINIT` is the only value the spec states. Every other register
is zero by DESIGN CHOICE, unsafe (log entry 4): the spec says "unspecified". Nothing is presented on the ports. -/
def State.reset : State where
  phase := .uninit
  h := Vector.replicate 8 0#32
  bitCount := 0#64
  buf := Vector.replicate 64 0#8
  dout := Vector.replicate 32 0#8
  scratch := Scratch.reset
  ports := Ports.empty
  resetLine := .released
  outcome := []
  draws := 0

end Sys2Proof.Machine
end

