-- ==== Sys2Proof/Machine/Operands.lean ====
section
/-!
DEFINITION. How operands are read: the word operators (R15), the byte-order functions (R40 to R42), the fill (R105),
the bytes of an UPDATE (R46) and the Blocks COMPRESS is given (R69, R98).
-/

namespace Sys2Proof.Machine

/-- `rotr(x, n) = (x >> n) ∨ ((x · 2^(32-n)) mod 2^32)`, for 1 ≤ n ≤ 31 (R15). -/
def rotr (x : Word) (n : Nat) : Word := (x >>> n) ||| (x <<< (32 - n))

/-- `x >> n`, the logical right shift: "zeros enter from the left" (R15). -/
def shr (x : Word) (n : Nat) : Word := x >>> n

/-- `BE32(b0, b1, b2, b3)`: `b0` becomes bits 31:24 and `b3` bits 7:0 (R40). -/
def BE32 (b0 b1 b2 b3 : Byte) : Word := b0 ++ b1 ++ b2 ++ b3

/-- `be32(w)`: the bytes `w[31:24], w[23:16], w[15:8], w[7:0]`, lowest index first (R41). -/
def be32 (w : Word) : List Byte :=
  [w.extractLsb' 24 8, w.extractLsb' 16 8, w.extractLsb' 8 8, w.extractLsb' 0 8]

/-- `be64(n)`: the eight bytes of `n`, most significant first (R42). -/
def be64 (n : Count) : List Byte :=
  [n.extractLsb' 56 8, n.extractLsb' 48 8, n.extractLsb' 40 8, n.extractLsb' 32 8,
   n.extractLsb' 24 8, n.extractLsb' 16 8, n.extractLsb' 8 8, n.extractLsb' 0 8]

/-- The fill of a bit counter: `(bitCount / 8) mod 64` (R23, R105). -/
def fillOf (bitCount : Count) : Nat := bitCount.toNat / 8 % 64

/-- The fill `r` of the Context (R19, R23): "not a register of its own: it is computed from `bitCount`". -/
def State.fill (s : State) : Nat := fillOf s.bitCount

/-- `In(k)`: byte `k` of the data operand (R46). No rule asks for `k ≥ len` (R80). -/
def inByte (data : List Byte) (k : Nat) : Byte := data.getD k 0#8

/-- The Block `In(k) .. In(k+63)`, straight from the input (R48, R124). -/
def inBlock (data : List Byte) (k : Nat) : Block := Vector.ofFn fun j : Fin 64 => inByte data (k + j.val)

/-- `MemRead(a, n)`: the bytes `buf[a .. a+n-1]` in index order (R16). -/
def memRead (buf : Memory) (a n : Nat) : List Byte := (buf.toList.drop a).take n

/-- The 64 bytes `buf[0 .. 63]` as a Block: `MemRead(0, 64)` (R80, R124). -/
def bufBlock (buf : Memory) : Block := buf

/-- Word `j` of a Block, `BE32(blk[4j], blk[4j+1], blk[4j+2], blk[4j+3])` (R69, R83). -/
def blockWord (blk : Block) (j : Fin 16) : Word :=
  BE32 blk[4 * j.val] blk[4 * j.val + 1] blk[4 * j.val + 2] blk[4 * j.val + 3]

end Sys2Proof.Machine
end

