-- ==== Sys2Proof/Machine/Flags.lean ====
section
/-!
DEFINITION. The engine has no flags, condition codes or predicates (R32): no operation produces or tests one. What it
does evaluate are conditions on lengths, fills and the lifecycle (R32, R79, R150); all of them stand here.
-/

namespace Sys2Proof.Machine

/-- `r + len < 64`, evaluated without wrapping (R104 (c), R127): the new bytes only go to the buffer. -/
def buffersOnly (r len : Nat) : Bool := decide (r + len < 64)

/-- `r < 56` (R106, R110): the padding fits the block under construction. -/
def padFits (r : Nat) : Bool := decide (r < 56)

/-- `bitCount + 8·len ≥ 2^64`, evaluated without wrapping (R126). -/
def countOverflows (bitCount : Count) (len : Nat) : Bool := decide (2 ^ 64 ≤ bitCount.toNat + 8 * len)

/-- The preconditions of UPDATE, in the order of R150: the lifecycle, then the length bound (R122, R124, R146). -/
def updateRefusal (len : Nat) (s : State) : Option Refusal :=
  if s.phase ≠ .active then some .updateOutsideLifecycle
  else if countOverflows s.bitCount len then some .bitcountOverflow
  else none

/-- The precondition of FINAL (R112, R146). -/
def finalRefusal (s : State) : Option Refusal :=
  if s.phase ≠ .active then some .finalOutsideLifecycle else none

end Sys2Proof.Machine
end

