-- ==== Sys2Proof/Machine/Ops.lean ====
section
/-!
DEFINITION. The named operations over the state that several meanings share: writing the buffer (R16), handing a digest
to the host (R49), the free values the spec leaves open, accepting and ending a command, the hardware reset (R165).
Taking an exception has no operation here: the engine raises none and has no trap entry or return (R145, R151, R152).
-/

namespace Sys2Proof.Machine

/-- `MemWrite(a, n, v)`: the bytes `v` go to `buf[a .. a+n-1]` (R16); every other byte stays. -/
def memWrite (buf : Memory) (a : Nat) (v : List Byte) : Memory :=
  Vector.ofFn fun j : Fin 64 => if a ≤ j.val then v.getD (j.val - a) buf[j] else buf[j]

/-- The block buffer written out as the host's cells, addresses 0 to 63 rising (R45). -/
def Memory.cells (buf : Memory) : List Host.Cell := (List.finRange 64).map fun a => (a.val, buf[a])

/-- The canonical form of the buffer as cells: exactly the addresses 0 to 63, each once, in rising order. -/
def Memory.wf (cells : List Host.Cell) : Bool := decide (cells.map Prod.fst = List.range 64)

/-- The working variables as the eight words of the State stand (R98): `a = H[0]`, ..., `h = H[7]`. -/
def Working.ofH (h : HashState) : Working := ⟨h[0], h[1], h[2], h[3], h[4], h[5], h[6], h[7]⟩

/-- The scratch space at draw `n`: any value. -/
def freeScratch (n : Nat) : Scratch where
  blk := Config.freeBlock n
  w := Config.freeSchedule n
  work := ⟨Config.freeWorking n 0, Config.freeWorking n 1, Config.freeWorking n 2, Config.freeWorking n 3,
    Config.freeWorking n 4, Config.freeWorking n 5, Config.freeWorking n 6, Config.freeWorking n 7⟩
  round := Config.freeRoundIndex n

/-- `H, bitCount, buf <- unspecified` (R112, R114): each takes a free value. -/
def forgetContext (s : State) : State :=
  { s with
    h := Config.freeH s.draws
    bitCount := Config.freeBitCount s.draws
    buf := Config.freeBuf s.draws
    draws := s.draws + 1 }

/-- `Out(d)` (R49): the 32 bytes go to the digest output, and so to the host. -/
def out (d : Digest) (s : State) : State := { s with dout := d, outcome := s.outcome ++ [d] }

/-- The scratch space between commands: a model "must not assume the scratch space keeps, or clears, its contents"
(R35 (b), U12). -/
def scrambleScratch (s : State) : State := { s with scratch := freeScratch s.draws, draws := s.draws + 1 }

/-- The digest output once a further command has been issued: "unspecified" (R30, U11). -/
def scrambleDout (s : State) : State := { s with dout := Config.freeDout s.draws, draws := s.draws + 1 }

/-- A command is accepted: it leaves the ports (R33 "consumed when the command is accepted"), `rest` stays behind it,
and the digest output no longer holds (R30). -/
def acceptCommand (rest : Ports) (s : State) : State := scrambleDout { s with ports := rest }

/-- A command has completed: nothing of the scratch space is promised between commands (R24, R25, R35). -/
def endCommand : Outcome → Outcome
  | .next s => .next (scrambleScratch s)
  | .fault r => .fault r
  | .refused r => .refused r

/-- UPDATE's length is presented and its data is not all there yet: the preconditions of R124 depend on `len` alone and
refuse at once; otherwise the command has not started and nothing changes (R51, R67, R169; log entries 3 and 19). -/
def awaitData (len : Count) (s : State) : Outcome :=
  match updateRefusal len.toNat s with
  | some r => .refused r
  | none => .next s

/-- The hardware reset (R165): `phase <- UNINIT`; `H`, `bitCount`, `buf`, scratch and `dout` take free values. The
command in progress, if reset hits one, "is lost and leaves nothing behind" (`rest` is what stands behind it), a command
outside its preconditions too: DESIGN CHOICE (log entry 15). -/
def applyReset (rest : Ports) (s : State) : State :=
  { s with
    phase := .uninit
    h := Config.freeH s.draws
    bitCount := Config.freeBitCount s.draws
    buf := Config.freeBuf s.draws
    dout := Config.freeDout s.draws
    scratch := freeScratch s.draws
    ports := rest
    resetLine := .released
    draws := s.draws + 1 }

/-- The ports behind the command that stands first on them, or the same ports where no whole command stands there. -/
def portsBehindCommand (p : Ports) : Ports :=
  match portDecode p with
  | .command _ rest => rest
  | .idle => p
  | .reserved _ => p
  | .awaitLen => p
  | .awaitData _ => p

/-- The host presents a command. DESIGN CHOICE where an earlier command still stands on the ports, an overlap to which the
spec gives no meaning (R169, U14): the new command goes in front of it and runs first (log entry 22). DESIGN CHOICE: an
UPDATE that is not well-formed is presented as `encode` writes it (log entry 21). -/
def present (i : Instr) (s : State) : State := { s with ports := (encode i).append s.ports }

/-- The host presents the command byte `w` of an opcode-table row with operands of zeros: for UPDATE the length 0 on the
length port (so no data byte), for every other byte nothing more (R62, R67). The reset input is released. -/
def presentTableWord (w : Nat) (s : State) : State :=
  { s with
    resetLine := .released
    ports :=
      { s.ports with
        cmd := BitVec.ofNat 8 w :: s.ports.cmd
        len := if BitVec.ofNat 8 w = opcode (.update []) then 0#64 :: s.ports.len else s.ports.len } }

end Sys2Proof.Machine
end

