-- ==== Sys2Proof/Machine/MessageSchedule.lean ====
section
/-!
DEFINITION. MessageSchedule (40_message_schedule.md): the functions `ssig0`, `ssig1` and the operation SCHED.
-/

namespace Sys2Proof.Machine

/-- `ssig0(x) = rotr(x, 7) ⊕ rotr(x, 18) ⊕ (x >> 3)` (R81). -/
def ssig0 (x : Word) : Word := rotr x 7 ^^^ rotr x 18 ^^^ shr x 3

/-- `ssig1(x) = rotr(x, 17) ⊕ rotr(x, 19) ⊕ (x >> 10)` (R82). -/
def ssig1 (x : Word) : Word := rotr x 17 ^^^ rotr x 19 ^^^ shr x 10

/-- Word `n` of the Schedule from the words `w` before it: a word of the Block for `n < 16` (R83), the recurrence of
R84 from there on. -/
def nextScheduleWord (blk : Block) (w : List Word) (n : Nat) : Word :=
  if h : n < 16 then blockWord blk ⟨n, h⟩
  else ssig1 (w.getD (n - 2) 0) + w.getD (n - 7) 0 + ssig0 (w.getD (n - 15) 0) + w.getD (n - 16) 0

/-- The words `w` with the next word `n` behind them (R84). -/
def extendSchedule (blk : Block) (n : Nat) (w : List Word) : List Word := w ++ [nextScheduleWord blk w n]

/-- The first `n` words of the Schedule, in ascending order (R84). -/
def scheduleWords (blk : Block) : Nat → List Word
  | 0 => []
  | n + 1 => extendSchedule blk n (scheduleWords blk n)

/-- SCHED as a function of the Block alone (R84, R85). -/
def schedule (blk : Block) : Schedule := Vector.ofFn fun i : Fin 64 => (scheduleWords blk 64).getD i.val 0

/-- SCHED (R84): expands the Block at hand into `W[0..63]`. "State read: none but the operand. State written: none but
the result." -/
def execSched (s : State) : Outcome := .next { s with scratch := { s.scratch with w := schedule s.scratch.blk } }

end Sys2Proof.Machine
end

