-- ==== Sys2Proof/Machine/CompressionCore.lean ====
section
/-!
DEFINITION. CompressionCore (41_compression_core.md): the functions `Ch`, `Maj`, `bsig0`, `bsig1`, `T1`, `T2` and the
operations ROUND and COMPRESS.
-/

namespace Sys2Proof.Machine

/-- `Ch(x, y, z) = (x ∧ y) ⊕ (¬x ∧ z)` (R90). -/
def Ch (x y z : Word) : Word := (x &&& y) ^^^ (~~~x &&& z)

/-- `Maj(x, y, z) = (x ∧ y) ∨ (x ∧ z) ∨ (y ∧ z)` (R91). -/
def Maj (x y z : Word) : Word := (x &&& y) ||| (x &&& z) ||| (y &&& z)

/-- `bsig0(x) = rotr(x, 2) ⊕ rotr(x, 13) ⊕ rotr(x, 22)` (R92). -/
def bsig0 (x : Word) : Word := rotr x 2 ^^^ rotr x 13 ^^^ rotr x 22

/-- `bsig1(x) = rotr(x, 6) ⊕ rotr(x, 11) ⊕ rotr(x, 25)` (R93). -/
def bsig1 (x : Word) : Word := rotr x 6 ^^^ rotr x 11 ^^^ rotr x 25

/-- `T1 = h + bsig1(e) + Ch(e, f, g) + K[i] + W[i]` (R94). -/
def T1 (i : Fin 64) (v : Working) (w : Schedule) : Word := v.h + bsig1 v.e + Ch v.e v.f v.g + K[i] + w[i]

/-- `T2 = bsig0(a) + Maj(a, b, c)` (R95). -/
def T2 (v : Working) : Word := bsig0 v.a + Maj v.a v.b v.c

/-- One round: all right-hand sides use the values from before the round (R96, R97). -/
def roundStep (w : Schedule) (i : Fin 64) (v : Working) : Working where
  a := T1 i v w + T2 v
  b := v.a
  c := v.b
  d := v.c
  e := v.d + T1 i v w
  f := v.e
  g := v.f
  h := v.g

/-- The rounds 0 to `n - 1` in ascending order (R98). The round index wraps at 64; COMPRESS runs `n = 64`. -/
def rounds (w : Schedule) : Nat → Working → Working
  | 0, v => v
  | n + 1, v => roundStep w (Fin.ofNat 64 n) (rounds w n v)

/-- Feed-forward: the old State plus the working variables, word by word (R98, R99). -/
def feedForward (h : HashState) (v : Working) : HashState :=
  #v[h[0] + v.a, h[1] + v.b, h[2] + v.c, h[3] + v.d, h[4] + v.e, h[5] + v.f, h[6] + v.g, h[7] + v.h]

/-- COMPRESS as a function of the State `H` and the Block (R98, R103). -/
def compressH (h : HashState) (blk : Block) : HashState :=
  feedForward h (rounds (schedule blk) 64 (Working.ofH h))

/-- COMPRESS on the machine: `H` takes the new State; the scratch space holds what the 64 rounds left (R98). -/
def compressBlock (blk : Block) (s : State) : State :=
  { s with
    h := compressH s.h blk
    scratch :=
      { blk := blk
        w := schedule blk
        work := rounds (schedule blk) 64 (Working.ofH s.h)
        round := 63 } }

/-- ROUND (R96): one round at the round index at hand, on the working variables and the Schedule at hand. -/
def execRound (s : State) : Outcome :=
  .next { s with scratch := { s.scratch with work := roundStep s.scratch.w s.scratch.round s.scratch.work } }

/-- COMPRESS (R98) of the Block at hand. -/
def execCompress (s : State) : Outcome := .next (compressBlock s.scratch.blk s)

end Sys2Proof.Machine
end

