-- ==== Sys2Proof/Machine/Padder.lean ====
section
/-!
DEFINITION. Padder (42_padder.md): the operation PAD, the Digest and the command FINAL.
-/

namespace Sys2Proof.Machine

/-- The block under construction before the length field: the `r` buffered bytes, `0x80` at offset `r`, zeros after it
(R106, R107, R110). No buffer byte at or above the fill enters it (R116). -/
def padHead (buf : Memory) (r : Nat) : Block :=
  Vector.ofFn fun j : Fin 64 => if j.val < r then buf[j] else if j.val = r then padByte else 0#8

/-- `blk[56..63] <- be64(bitCount)` (R71, R108). -/
def setLength (blk : Block) (bitCount : Count) : Block := memWrite blk 56 (be64 bitCount)

/-- The fresh all-zero block of the two-block case (R107). -/
def zeroBlock : Block := Vector.replicate 64 0#8

/-- The Blocks PAD compresses, in order: one when `r < 56`, two when `r ≥ 56` (R72, R111). -/
def padBlocks (buf : Memory) (bitCount : Count) : List Block :=
  if padFits (fillOf bitCount) then [setLength (padHead buf (fillOf bitCount)) bitCount]
  else [padHead buf (fillOf bitCount), setLength zeroBlock bitCount]

/-- Several Blocks compressed in the order given, each from the State the one before it left (R128). -/
def compressBlocks (blks : List Block) (s : State) : State := blks.foldl (fun t blk => compressBlock blk t) s

/-- PAD (R110): "State written: `H` (through COMPRESS) only"; `bitCount` and `buf` stay. -/
def padContext (s : State) : State := compressBlocks (padBlocks s.buf s.bitCount) s

/-- The Digest of a State: byte `4j + k` is byte `k` of `be32(H[j])` (R70, R113). -/
def digestOf (h : HashState) : Digest :=
  Vector.ofFn fun n : Fin 32 => (be32 h[n.val / 4]).getD (n.val % 4) 0#8

/-- FINAL after its precondition (R112): PAD, the Digest to the host, `phase <- FINALIZED`, the Context unspecified. -/
def finalContext (s : State) : State :=
  forgetContext { out (digestOf (padContext s).h) (padContext s) with phase := .finalized }

/-- PAD (R110) as an operation of its own. -/
def execPad (s : State) : Outcome := .next (padContext s)

/-- FINAL (R112). -/
def execFinal (s : State) : Outcome :=
  match finalRefusal s with
  | some r => .refused r
  | none => .next (finalContext s)

end Sys2Proof.Machine
end

