-- ==== Sys2Proof/Machine/StreamingContext.lean ====
section
/-!
DEFINITION. StreamingContext (43_streaming_context.md): the commands INIT and UPDATE.
-/

namespace Sys2Proof.Machine

/-- INIT (R120, R121): accepted in every phase. "INIT need not write any byte of `buf`": it writes none (log entry 11). -/
def execInit (s : State) : Outcome := .next { s with h := IV, bitCount := 0#64, phase := .active }

/-- `bitCount <- bitCount + 8·len`, one 64-bit addition (R125). -/
def countBits (len : Nat) (s : State) : State := { s with bitCount := s.bitCount + BitVec.ofNat 64 (8 * len) }

/-- Bytes to the buffer from index `a` up (R127, R128). -/
def bufferBytes (a : Nat) (v : List Byte) (s : State) : State := { s with buf := memWrite s.buf a v }

/-- The `while` loop of R124: `n` whole chunks of the input from offset `k` up are compressed directly. -/
def compressInput (data : List Byte) : Nat → Nat → State → State
  | 0, _, s => s
  | n + 1, k, s => compressInput data n (k + 64) (compressBlock (inBlock data k) s)

/-- The compressing case (R128): complete the buffer from fill `r`, compress it, compress every following full chunk
from the input, keep the trailing bytes. The loop of R124 runs `(len - k) / 64` times. -/
def absorbBlocks (r : Nat) (data : List Byte) (s : State) : State :=
  let k := 64 - r
  let n := (data.length - k) / 64
  let s1 := bufferBytes r (data.take k) s
  let s2 := compressBlock (bufBlock s1.buf) s1
  let s3 := compressInput data n k s2
  bufferBytes 0 (data.drop (k + 64 * n)) s3

/-- UPDATE after its preconditions (R124). The fill that places the bytes is that of the OLD `bitCount` (R125). -/
def absorb (data : List Byte) (s : State) : State :=
  if data.length = 0 then s
  else if buffersOnly s.fill data.length then bufferBytes s.fill data (countBits data.length s)
  else absorbBlocks s.fill data (countBits data.length s)

/-- UPDATE (R122, R124). -/
def execUpdate (data : List Byte) (s : State) : Outcome :=
  match updateRefusal data.length s with
  | some r => .refused r
  | none => .next (absorb data s)

end Sys2Proof.Machine
end

