-- ==== Sys2Proof/Machine/Dispatch.lean ====
section
/-!
DEFINITION. One arm per operation, each a direct call of its meaning.
-/

namespace Sys2Proof.Machine

def exec (i : Instr) (s : State) : Host.Outcome State Fault Refusal :=
  match i with
  | .init => Sys2Proof.Machine.execInit s
  | .update data => Sys2Proof.Machine.execUpdate data s
  | .final => Sys2Proof.Machine.execFinal s
  | .sched => Sys2Proof.Machine.execSched s
  | .round => Sys2Proof.Machine.execRound s
  | .compress => Sys2Proof.Machine.execCompress s
  | .pad => Sys2Proof.Machine.execPad s

end Sys2Proof.Machine
end

