-- ==== Sys2Proof/Machine/Step.lean ====
section
/-!
DEFINITION. One step of the engine: a hardware reset if it is applied, otherwise one command from the ports, run to
completion (R51, R54).
-/

namespace Sys2Proof.Machine

/-- A whole command `i`, behind which `rest` stands on the ports: accepted, executed, ended. -/
def runCommand (i : Instr) (rest : Ports) (s : State) : Outcome := endCommand (exec i (acceptCommand rest s))

/-- The command port (R68). No command presented, or one not yet presented with its operands: the engine waits and
nothing changes (R159, R166). -/
def stepPort (s : State) : Outcome :=
  match portDecode s.ports with
  | .idle => .next s
  | .reserved _ => .refused .reservedCommand
  | .awaitLen => .next s
  | .awaitData len => awaitData len s
  | .command i rest => runCommand i rest s

/-- One step. "Reset may be applied at any time; a command in progress when reset is applied is lost" (R165). DESIGN CHOICE
where R165 meets R148 (log entry 15): a reset that hits a whole command outside its preconditions loses it as it loses any
other, and the step is the reset, no refusal; a reserved byte it finds first stays on the ports. -/
def step (s : State) : Host.Outcome State Fault Refusal :=
  match s.resetLine with
  | .released => stepPort s
  | .applied => .next (applyReset s.ports s)
  | .appliedInCommand => .next (applyReset (portsBehindCommand s.ports) s)

/-- `s` with the command of an opcode-table row presented first on the ports, its operands zeros. -/
def State.withFetchWord (s : State) (_nbits w : Nat) : State := presentTableWord w s

end Sys2Proof.Machine
end

