-- ==== Sys2Proof/Machine/Facade.lean ====
section
/-!
DEFINITION. The host-side pseudo-operations (44_facade.md): fixed sequences of commands the host issues (R75). They
have no command byte and are no constructors of `Instr`; they run the engine through its ports.
-/

namespace Sys2Proof.Machine

/-- The host goes on only from a next state. -/
def andThen (o : Outcome) (f : State → Outcome) : Outcome :=
  match o with
  | .next s => f s
  | .fault r => .fault r
  | .refused r => .refused r

/-- The host issues one command and the engine makes one step. DESIGN CHOICE where the spec is silent: with reset applied
that step is the reset, not the command (log entry 15); with earlier commands still on the ports the new one runs in
front of them (log entry 22); an UPDATE that is not well-formed is issued as `encode` writes it,
its length modulo 2^64 (log entry 21). -/
def issue (i : Instr) (s : State) : Outcome := step (present i s)

/-- The host issues commands one after the other (R168, R169). -/
def issueAll : List Instr → State → Outcome
  | [], s => .next s
  | i :: is, s => andThen (issue i s) (issueAll is)

/-- HASH (R135): `INIT ; UPDATE m ; FINAL`; the digest is on `dout`. Messages of 2^61 to 2^64 - 1 bytes end refused
(`bitcountOverflow`, R126). DESIGN CHOICE outside what R135 says: a message of 2^64 bytes or more is issued with its length
modulo 2^64 (log entry 21), a HASH begun with reset applied ends refused (log entry 15), and a HASH issued while an earlier
command still stands on the ports runs in front of it (log entry 22). -/
def hostHash (m : List Byte) (s : State) : Outcome := issueAll [.init, .update m, .final] s

/-- The `n` bytes found at the start of where the host keeps `d1` (R136): digest bytes, and behind them whatever the
host's storage holds, a draw (R139). -/
def secondPass (d1 : Digest) (draw n : Nat) : List Byte :=
  (List.range n).map fun j => if h : j < 32 then d1[j] else Config.overread draw n (j - 32)

/-- DOUBLEHASH (R136), preserved as is (R140): the second pass has the length of the message, not 32. The host captures
`d1` before it issues the second INIT (R170). -/
def hostDoubleHash (m : List Byte) (s : State) : Outcome :=
  andThen (hostHash m s) fun t => hostHash (secondPass t.dout t.draws m.length) { t with draws := t.draws + 1 }

end Sys2Proof.Machine
end

