-- ==== Sys2Proof/Machine/Message.lean ====
section
/-!
DEFINITION. The message-level reading of the rules, as functions of the message alone: the padded message (R73), its
Blocks, the chain of States, the digest. Claims compare the machine with these; no meaning calls them.
-/

namespace Sys2Proof.Machine

/-- The whole Blocks of a byte string, in order: `floor(L / 64)` of them (R131). -/
def blocksOf (bytes : List Byte) : List Block := (List.range (bytes.length / 64)).map fun q => inBlock bytes (64 * q)

/-- The chain of States over Blocks: "chaining output state as input to the next block" (R18, R128). -/
def chain (h : HashState) (blks : List Block) : HashState := blks.foldl compressH h

/-- The bytes of a message of `L` bytes that are in no whole Block: its last `L mod 64` bytes (R23). -/
def tailOf (bytes : List Byte) : List Byte := bytes.drop (64 * (bytes.length / 64))

/-- The number of zero bytes of the padding, `z = (55 - L) mod 64` (R73). -/
def zeroFill (L : Nat) : Nat := (119 - L % 64) % 64

/-- The padded message: the message, `0x80`, `z` zero bytes, `be64(8·L)` (R73). -/
def paddedMessage (m : List Byte) : List Byte :=
  m ++ [padByte] ++ List.replicate (zeroFill m.length) 0#8 ++ be64 (BitVec.ofNat 64 (8 * m.length))

/-- The digest of a message: the chain from `IV` over the Blocks of the padded message, encoded (R73, R113). -/
def messageDigest (m : List Byte) : Digest := digestOf (chain IV (blocksOf (paddedMessage m)))

end Sys2Proof.Machine
end

