-- ==== Sys2Proof/Machine/Misuse.lean ====
section
/-!
DEFINITION. The second reading R148 allows of a refused command: "a model that wants to follow the hardware there must
replace the refusal by "`H`, `bitCount`, `buf` become unspecified, no digest is valid, `phase` becomes `UNINIT`", and say
that it did". The model's step takes the first reading (a refusal, which R148 says a model must make); this file gives
the second beside it (log entry 9).
-/

namespace Sys2Proof.Machine

/-- What a command outside the specified domain leaves: an unspecified Context in UNINIT (R148). "No digest is valid":
DESIGN CHOICE (log entry 9), read as that the command hands no digest over and `dout` holds none; the digests handed over
before it stay in the record `outcome`, for the host has them. -/
def misuse (s : State) : State := { forgetContext s with phase := .uninit }

/-- A refused command goes on with an unspecified Context in `before`, the state in which it was executed. -/
def orMisuse (before : State) : Outcome → Outcome
  | .next t => .next t
  | .fault r => .fault r
  | .refused _ => .next (misuse before)

/-- The command port under the second reading. A reserved byte is consumed and "takes nothing more" (R67). DESIGN CHOICE
(log entry 9): an UPDATE whose length is presented and whose data is not all there waits, and nothing changes, even where
its preconditions fail and the step refuses it at once (log entry 19); it is misuse once its data is there. -/
def stepPortOrMisuse (s : State) : Outcome :=
  match portDecode s.ports with
  | .idle => .next s
  | .awaitLen => .next s
  | .awaitData _ => .next s
  | .reserved _ =>
    endCommand (.next (misuse (acceptCommand { s.ports with cmd := s.ports.cmd.tail } s)))
  | .command i rest => endCommand (orMisuse (acceptCommand rest s) (exec i (acceptCommand rest s)))

/-- One step under the second reading: no command stops the engine. -/
def stepOrMisuse (s : State) : Outcome :=
  match s.resetLine with
  | .released => stepPortOrMisuse s
  | .applied => .next (applyReset s.ports s)
  | .appliedInCommand => .next (applyReset (portsBehindCommand s.ports) s)

end Sys2Proof.Machine
end

