-- ==== Sys2Proof/Safety.lean ====
section
/-!
DEFINITION. What claims about runs are stated in: the Context invariant (R23), the lifecycle (R168), the agreement of two
states in everything the rules let a result depend on (R35, R116), a frame.
-/

namespace Sys2Proof.Machine

/-- The Context holds the message `m`, the bytes submitted by UPDATE since INIT (R21, R23, R132): all its whole Blocks
are compressed, and the bytes not compressed yet are `buf[0 .. r-1]`. -/
structure Holds (m : List Byte) (s : State) : Prop where
  active : s.phase = .active
  count : s.bitCount.toNat = 8 * m.length
  chained : s.h = chain IV (blocksOf m)
  pending : memRead s.buf 0 s.fill = tailOf m

/-- The Context invariant of the machine (R23): in ACTIVE the Context holds some message. -/
def ContextInv (s : State) : Prop := s.phase = .active → ∃ m, Holds m s

/-- The two states agree in everything the rules read: `phase`, `H`, `bitCount` and the buffer bytes below the fill.
The bytes at and above the fill, the scratch space and the free values are left out (R35, R116). -/
structure SameContext (s t : State) : Prop where
  phase : s.phase = t.phase
  h : s.h = t.h
  bitCount : s.bitCount = t.bitCount
  pending : memRead s.buf 0 s.fill = memRead t.buf 0 t.fill

/-- Everything but `phase`, `H`, `bitCount`, `buf` and the scratch space is the same: what INIT, UPDATE and the
internal operations may write at most (R36). -/
structure SamePorts (s t : State) : Prop where
  dout : t.dout = s.dout
  outcome : t.outcome = s.outcome
  ports : t.ports = s.ports
  resetLine : t.resetLine = s.resetLine
  draws : t.draws = s.draws

/-- The primes of R26 and R27, "the first 64 primes (2 to 311)". -/
def smallPrimes : List Nat := (List.range 312).filter fun p => decide (2 ≤ p ∧ ∀ d ∈ List.range p, 2 ≤ d → ¬ d ∣ p)

/-- UPDATE commands one after the other, one per chunk (R130). -/
def feed : List (List Byte) → State → Outcome
  | [], s => .next s
  | c :: cs, s => andThen (exec (.update c) s) (feed cs)

/-- The command sequence keeps the lifecycle from `phase` on (R168): every UPDATE and every FINAL has an INIT before it
with no FINAL in between; the internal operations are no host commands (R64). -/
def lifecycle : Phase → List Instr → Bool
  | _, [] => true
  | _, .init :: is => lifecycle .active is
  | p, .update _ :: is => decide (p = .active) && lifecycle p is
  | p, .final :: is => decide (p = .active) && lifecycle .finalized is
  | _, .sched :: _ => false
  | _, .round :: _ => false
  | _, .compress :: _ => false
  | _, .pad :: _ => false

/-- Every message of the sequence stays below 2^64 bits (R126, R172); `bits` counts the message in progress. -/
def withinBound : Nat → List Instr → Bool
  | _, [] => true
  | _, .init :: is => withinBound 0 is
  | bits, .update data :: is => decide (bits + 8 * data.length < 2 ^ 64) && withinBound (bits + 8 * data.length) is
  | _, .final :: is => withinBound 0 is
  | bits, .sched :: is => withinBound bits is
  | bits, .round :: is => withinBound bits is
  | bits, .compress :: is => withinBound bits is
  | bits, .pad :: is => withinBound bits is

/-- The digests a conforming command sequence returns, in order (R176): one per FINAL, of the message submitted since
the last INIT; `m` is the message in progress. -/
def expectedDigests : List Byte → List Instr → List Digest
  | _, [] => []
  | _, .init :: is => expectedDigests [] is
  | m, .update data :: is => expectedDigests (m ++ data) is
  | m, .final :: is => messageDigest m :: expectedDigests [] is
  | m, .sched :: is => expectedDigests m is
  | m, .round :: is => expectedDigests m is
  | m, .compress :: is => expectedDigests m is
  | m, .pad :: is => expectedDigests m is

/-- A step is safe when it answers a next state: the spec gives it a meaning (R148). -/
def SafeStep (s : State) : Prop := ∃ t, step s = .next t

end Sys2Proof.Machine
end

