-- ==== Sys2Proof/Certificates/Slice0/Obligations.lean ====
section
/-!
DEFINITION. The statements for the provers, one per claim, in the order of OBLIGATIONS.json.
-/

open Sys2Proof Sys2Proof.Machine

/-! Encoding (30_encoding.md). -/

/-- Decoding the encoding of any well-formed operation gives it back, and leaves what stands behind it on the ports
(R61, R62, R67). The code space of R61: all seven rows. -/
def Obligations.DecodeAfterEncodeGivesOperationBack : Prop :=
  ∀ (i : Instr) (rest : Ports), i.wellFormed = true → decode ((encode i).append rest) = .command i rest

/-- The other direction: what the decoder reads is well-formed, and the ports held exactly its encoding and the rest. -/
def Obligations.EncodeAfterDecodeGivesPortsBack : Prop :=
  ∀ (p : Ports) (i : Instr) (rest : Ports), decode p = .command i rest →
    i.wellFormed = true ∧ p = (encode i).append rest

/-- R65: every command byte other than `0x00`, `0x01`, `0x02`, the labels `0x08` to `0x0B` included, is refused at the
command port as `reserved_command`, in every state; and none of those three is. -/
def Obligations.PortRefusesExactlyReservedBytes : Prop :=
  ∀ (s : State) (cmd : Byte) (cmds : List Byte), s.resetLine = .released → s.ports.cmd = cmd :: cmds →
    (step s = .refused .reservedCommand ↔ cmd ≠ 0x00#8 ∧ cmd ≠ 0x01#8 ∧ cmd ≠ 0x02#8)

/-- Words of R61 written out: the seven rows decode to their operations, a reserved code to nothing, and an UPDATE
takes `len` and then `len` data bytes. -/
def Obligations.TableWordsDecodeAsListed : Prop :=
  decodeTableWord 8 0b00000000 = some .init ∧ decodeTableWord 8 0b00000001 = some (.update []) ∧
  decodeTableWord 8 0b00000010 = some .final ∧ decodeTableWord 8 0b00001000 = some .sched ∧
  decodeTableWord 8 0b00001001 = some .round ∧ decodeTableWord 8 0b00001010 = some .compress ∧
  decodeTableWord 8 0b00001011 = some .pad ∧ decodeTableWord 8 0b00000011 = none ∧ decodeTableWord 8 0b00010000 = none ∧
  decode ⟨[0x01#8, 0x02#8], [3#64], [0x61#8, 0x62#8, 0x63#8, 0x64#8]⟩ =
    .command (.update [0x61#8, 0x62#8, 0x63#8]) ⟨[0x02#8], [], [0x64#8]⟩

/-- A step runs the decoded command: when the ports decode to a host command, the step is exec of it on the state whose
ports and digest output it has consumed, and afterwards the scratch space is forgotten (log entries 7 and 8). -/
def Obligations.StepRunsDecodedCommand : Prop :=
  ∀ (s : State) (i : Instr) (rest : Ports), s.resetLine = .released → isHostCommand i = true →
    decode s.ports = .command i rest →
    step s = endCommand (exec i { s with ports := rest, dout := Config.freeDout s.draws, draws := s.draws + 1 }) ∧
    (∀ t : State, endCommand (.next t) =
      .next { t with scratch := freeScratch t.draws, draws := t.draws + 1 }) ∧
    (∀ r : Refusal, endCommand (.refused r) = .refused r)

/-- With no command presented the engine waits and nothing changes (R159, R166). -/
def Obligations.EngineIdlesWithoutCommand : Prop :=
  ∀ s : State, s.resetLine = .released → s.ports.cmd = [] → step s = .next s

/-- An UPDATE whose operands are not all presented. While its length is missing it has not started and nothing changes.
With its length presented and its data not all there it is refused if its preconditions fail (they depend on `len` alone),
and otherwise has not started: nothing changes. The model's choice (log entries 3 and 19). -/
def Obligations.IncompleteUpdateWaitsOrIsRefused : Prop :=
  ∀ (s : State) (cmds : List Byte), s.resetLine = .released → s.ports.cmd = 0x01#8 :: cmds →
    (s.ports.len = [] → step s = .next s) ∧
    (∀ (len : Count) (lens : List Count), s.ports.len = len :: lens → s.ports.data.length < len.toNat →
      (s.phase ≠ .active → step s = .refused .updateOutsideLifecycle) ∧
      (s.phase = .active → 2 ^ 64 ≤ s.bitCount.toNat + 8 * len.toNat → step s = .refused .bitcountOverflow) ∧
      (s.phase = .active → s.bitCount.toNat + 8 * len.toNat < 2 ^ 64 → step s = .next s))

/-! Reset (70_reset_and_hazards.md). -/

/-- R167: after reset, UPDATE and FINAL are refused and INIT is accepted. -/
def Obligations.ResetStateAcceptsOnlyInit : Prop :=
  State.reset.phase = .uninit ∧
  (∀ data : List Byte, exec (.update data) State.reset = .refused .updateOutsideLifecycle) ∧
  exec .final State.reset = .refused .finalOutsideLifecycle ∧
  ∃ t, exec .init State.reset = .next t ∧ t.phase = .active

/-- A hardware reset may come in any state: it leaves UNINIT, and a command it hits is lost (R165). The model's choices: how
reset is applied, that a command it hits outside that command's preconditions is lost too and no refusal, and that the ports
stay but for the command hit, all of them where no whole command stands first on them (log entry 15); that the record of the digests handed over stays (log entry 18). -/
def Obligations.HardwareResetLeavesUninit : Prop :=
  ∀ s : State, s.resetLine ≠ .released →
    ∃ t, step s = .next t ∧ t.phase = .uninit ∧ t.resetLine = .released ∧ t.outcome = s.outcome ∧
      (s.resetLine = .applied → t.ports = s.ports) ∧
      (∀ (i : Instr) (rest : Ports), s.resetLine = .appliedInCommand → portDecode s.ports = .command i rest →
        t.ports = rest) ∧
      ((∀ (i : Instr) (rest : Ports), portDecode s.ports ≠ .command i rest) → t.ports = s.ports)

/-! INIT (43_streaming_context.md section 1). -/

/-- R120: INIT completes in every state, writes `H`, `bitCount`, `phase` with the values the spec prints, leaves fill 0,
and "INIT directly after INIT changes nothing". -/
def Obligations.InitWritesInitialContext : Prop :=
  ∀ s : State, ∃ t, exec .init s = .next t ∧
    t.h = #v[0x6A09E667#32, 0xBB67AE85#32, 0x3C6EF372#32, 0xA54FF53A#32,
             0x510E527F#32, 0x9B05688C#32, 0x1F83D9AB#32, 0x5BE0CD19#32] ∧
    t.bitCount = 0#64 ∧ t.phase = .active ∧ t.fill = 0 ∧ SamePorts s t ∧ t.scratch = s.scratch ∧
    exec .init t = .next t

/-- INIT leaves every buffer byte as it was (R35 (a): the bytes "hold whatever earlier commands or reset left there";
that INIT writes none of them is the model's choice, log entry 11). -/
def Obligations.InitLeavesBufferBytes : Prop :=
  ∀ s t : State, exec .init s = .next t → ∀ a : Fin 64, t.buf[a] = s.buf[a]

/-- R38: after INIT the Context is the same whatever the state was before. -/
def Obligations.TwoInitsAgree : Prop :=
  ∀ s s' : State, ∃ t t', exec .init s = .next t ∧ exec .init s' = .next t' ∧ t.h = IV ∧ t'.h = IV ∧
    t.bitCount = 0#64 ∧ t'.bitCount = 0#64 ∧ t.fill = 0 ∧ t'.fill = 0 ∧ t.phase = .active ∧ t'.phase = .active ∧
    SameContext t t'

/-! UPDATE (43_streaming_context.md section 2). -/

/-- R122: within the preconditions UPDATE completes, whatever its bytes; outside them it is refused, the lifecycle
checked first. -/
def Obligations.UpdateCompletesExactlyWithinPreconditions : Prop :=
  ∀ (data : List Byte) (s : State),
    (s.phase ≠ .active → exec (.update data) s = .refused .updateOutsideLifecycle) ∧
    (s.phase = .active → 2 ^ 64 ≤ s.bitCount.toNat + 8 * data.length →
      exec (.update data) s = .refused .bitcountOverflow) ∧
    (s.phase = .active → s.bitCount.toNat + 8 * data.length < 2 ^ 64 → ∃ t, exec (.update data) s = .next t)

/-- R123: UPDATE of length 0 changes nothing in ACTIVE, whatever the counter holds, and is refused outside it. -/
def Obligations.EmptyUpdateChangesNothing : Prop :=
  ∀ s : State, (s.phase = .active → exec (.update []) s = .next s) ∧
    (s.phase ≠ .active → exec (.update []) s = .refused .updateOutsideLifecycle)

/-- `bitCount` grows by exactly `8 · len` as one number, a carry out of bit 31 included, whether or not a compression
happens (R125), and the new fill is `(r + len) mod 64` (R124). -/
def Obligations.UpdateCountsEightBitsAByte : Prop :=
  ∀ (data : List Byte) (s : State), s.phase = .active → s.bitCount.toNat + 8 * data.length < 2 ^ 64 →
    ∃ t, exec (.update data) s = .next t ∧ t.bitCount.toNat = s.bitCount.toNat + 8 * data.length ∧
      t.fill = (s.fill + data.length) % 64

/-- While fill and length stay below one Block, the bytes go to `buf[r .. r+len-1]` in input order, `H` is unchanged, and
nothing else changes but `bitCount` (R127). That the bytes from `buf[r+len]` up stay as before is the model's choice (log
entry 11; R35 allows any value there). -/
def Obligations.UpdateBuffersShortInput : Prop :=
  ∀ (data : List Byte) (s : State), s.phase = .active → s.bitCount.toNat + 8 * data.length < 2 ^ 64 →
    s.fill + data.length < 64 →
    ∃ t, exec (.update data) s = .next t ∧ t.h = s.h ∧ t.phase = s.phase ∧ t.scratch = s.scratch ∧ SamePorts s t ∧
      t.bitCount = s.bitCount + BitVec.ofNat 64 (8 * data.length) ∧
      (∀ j, j < data.length → t.buf[s.fill + j]? = data[j]?) ∧
      (∀ a, a < s.fill ∨ s.fill + data.length ≤ a → t.buf[a]? = s.buf[a]?)

/-- R128: otherwise every full Block of the buffered bytes followed by the input is compressed in message order, each
from the `H` the one before it left, and the trailing bytes are stored from `buf[0]` up. -/
def Obligations.UpdateCompressesFullBlocksInOrder : Prop :=
  ∀ (data : List Byte) (s : State), s.phase = .active → s.bitCount.toNat + 8 * data.length < 2 ^ 64 →
    64 ≤ s.fill + data.length →
    ∃ t, exec (.update data) s = .next t ∧
      t.h = chain s.h (blocksOf (memRead s.buf 0 s.fill ++ data)) ∧
      memRead t.buf 0 ((s.fill + data.length) % 64) = tailOf (memRead s.buf 0 s.fill ++ data) ∧
      t.bitCount = s.bitCount + BitVec.ofNat 64 (8 * data.length) ∧ t.phase = s.phase

/-- The frame of UPDATE in all its forms (R124 "State written: `bitCount`, `buf`, `H`"): ports, digest output and
lifecycle stay; a byte of the buffer outside the stored bytes stays, where the stored bytes are `r .. r+len-1` in the
buffering case, and `r .. 63` and `0 .. (r+len) mod 64 - 1` in the compressing case. For the bytes at and above the new fill,
so for all that is said of the buffer in the compressing case, this is the model's choice (log entry 11; R35 allows any
value there). -/
def Obligations.UpdateFrame : Prop :=
  ∀ (data : List Byte) (s t : State), exec (.update data) s = .next t →
    SamePorts s t ∧ t.phase = s.phase ∧
    (s.fill + data.length < 64 → t.h = s.h ∧
      ∀ a : Fin 64, a.val < s.fill ∨ s.fill + data.length ≤ a.val → t.buf[a] = s.buf[a]) ∧
    (64 ≤ s.fill + data.length →
      ∀ a : Fin 64, (s.fill + data.length) % 64 ≤ a.val ∧ a.val < s.fill → t.buf[a] = s.buf[a])

/-- UPDATE extends the message the Context holds (R23, R129). -/
def Obligations.UpdateExtendsHeldMessage : Prop :=
  ∀ (m data : List Byte) (s : State), Holds m s → 8 * (m.length + data.length) < 2 ^ 64 →
    ∃ t, exec (.update data) s = .next t ∧ Holds (m ++ data) t

/-- Streaming equivalence (R130), from any state in ACTIVE: the chunks one after the other and all of them in one UPDATE
leave the same `H`, `bitCount`, `phase` and buffered bytes, however the input was split, empty chunks included. -/
def Obligations.StreamingEquivalence : Prop :=
  ∀ (chunks : List (List Byte)) (s : State), s.phase = .active →
    s.bitCount.toNat + 8 * chunks.flatten.length < 2 ^ 64 →
    ∃ t u, feed chunks s = .next t ∧ exec (.update chunks.flatten) s = .next u ∧ SameContext t u

/-- Which outcome an UPDATE has depends on the lifecycle, the counter and the length only, never on a data byte, a State
word or a buffer byte (R32, R79). -/
def Obligations.UpdateRefusalIndependentOfData : Prop :=
  ∀ (data data' : List Byte) (s s' : State) (r : Refusal), s.phase = s'.phase → s.bitCount = s'.bitCount →
    data.length = data'.length → (exec (.update data) s = .refused r ↔ exec (.update data') s' = .refused r)

/-! SCHED (40_message_schedule.md). -/

/-- R84: SCHED decodes the Block into the first 16 words and expands it by the recurrence; it writes nothing but the
Schedule. -/
def Obligations.SchedExpandsBlock : Prop :=
  ∀ s : State, ∃ t, exec .sched s = .next t ∧ t = { s with scratch := { s.scratch with w := t.scratch.w } } ∧
    (∀ j : Fin 16, t.scratch.w[j.val] =
      BE32 s.scratch.blk[4 * j.val] s.scratch.blk[4 * j.val + 1] s.scratch.blk[4 * j.val + 2] s.scratch.blk[4 * j.val + 3]) ∧
    (∀ i : Fin 64, 16 ≤ i.val → t.scratch.w[i] =
      ssig1 t.scratch.w[i.val - 2] + t.scratch.w[i.val - 7] + ssig0 t.scratch.w[i.val - 15] + t.scratch.w[i.val - 16])

/-- R85: SCHED is a total function of the Block: it completes in every state, and the same Block gives the same Schedule,
whatever else the state holds. -/
def Obligations.SchedDependsOnBlockOnly : Prop :=
  ∀ s s' : State, s.scratch.blk = s'.scratch.blk →
    ∃ t t', exec .sched s = .next t ∧ exec .sched s' = .next t' ∧ t.scratch.w = t'.scratch.w

/-! ROUND and COMPRESS (41_compression_core.md). -/

/-- R96: one round, all right-hand sides with the values from before it; it writes nothing but the working variables. -/
def Obligations.RoundAssignsSimultaneously : Prop :=
  ∀ s : State,
    let v := s.scratch.work
    let t1 := v.h + bsig1 v.e + Ch v.e v.f v.g + K[s.scratch.round] + s.scratch.w[s.scratch.round]
    let t2 := bsig0 v.a + Maj v.a v.b v.c
    exec .round s = .next { s with scratch := { s.scratch with
      work := { a := t1 + t2, b := v.a, c := v.b, d := v.c, e := v.d + t1, f := v.e, g := v.f, h := v.g } } }

/-- R98: COMPRESS is SCHED, the working variables loaded from `H`, the 64 ROUNDs in ascending order, and the
feed-forward addition; it writes `H`, and of the rest nothing but the scratch space. (`compressH` is this function of
`H` and the Block; other statements name it.) -/
def Obligations.CompressIsSchedThenRoundsThenFeedForward : Prop :=
  ∀ s : State, ∃ (s1 : State) (f : Nat → State) (t : State),
    exec .sched s = .next s1 ∧
    f 0 = { s1 with scratch := { s1.scratch with
      work := ⟨s.h[0], s.h[1], s.h[2], s.h[3], s.h[4], s.h[5], s.h[6], s.h[7]⟩ } } ∧
    (∀ i : Fin 64,
      exec .round { f i.val with scratch := { (f i.val).scratch with round := i } } = .next (f (i.val + 1))) ∧
    exec .compress s = .next t ∧ t.h = compressH s.h s.scratch.blk ∧
    t.h = #v[s.h[0] + (f 64).scratch.work.a, s.h[1] + (f 64).scratch.work.b, s.h[2] + (f 64).scratch.work.c,
             s.h[3] + (f 64).scratch.work.d, s.h[4] + (f 64).scratch.work.e, s.h[5] + (f 64).scratch.work.f,
             s.h[6] + (f 64).scratch.work.g, s.h[7] + (f 64).scratch.work.h] ∧
    t = { s with h := t.h, scratch := t.scratch }

/-- The frame of the four internal operations: each completes in every state and leaves the lifecycle, the counter, the
buffer, the ports and the digest output; SCHED and ROUND leave `H` too (R36, R84, R96, R98, R110). -/
def Obligations.InternalOperationsFrame : Prop :=
  ∀ (i : Instr) (s : State), isHostCommand i = false →
    ∃ t, exec i s = .next t ∧ SamePorts s t ∧ t.phase = s.phase ∧ t.bitCount = s.bitCount ∧
      (∀ a : Fin 64, t.buf[a] = s.buf[a]) ∧ (i = .sched ∨ i = .round → t.h = s.h)

/-- R90, bit by bit: where a bit of x is 1 the result takes the bit of y, where it is 0 the bit of z. -/
def Obligations.ChChoosesBitwise : Prop :=
  ∀ (x y z : Word) (i : Nat), i < 32 →
    (Ch x y z).getLsbD i = if x.getLsbD i then y.getLsbD i else z.getLsbD i

/-- R91, bit by bit: the value that at least two of the three bits have, so the operands may be exchanged. -/
def Obligations.MajIsBitwiseMajority : Prop :=
  ∀ (x y z : Word) (i : Nat), i < 32 →
    ((Maj x y z).getLsbD i = true ↔
      2 ≤ (x.getLsbD i).toNat + (y.getLsbD i).toNat + (z.getLsbD i).toNat) ∧
    Maj x y z = Maj y x z ∧ Maj x y z = Maj x z y

/-- R81, R82, R92, R93, bit by bit: bit `i` of each function is the exclusive or of three bits of its operand; the third
term of `ssig0` and `ssig1` is a shift, so it gives nothing to their top 3 and 10 bits. -/
def Obligations.SigmaFunctionsMixThreeBits : Prop :=
  ∀ (x : Word) (i : Nat), i < 32 →
    (ssig0 x).getLsbD i = (x.getLsbD ((i + 7) % 32) ^^ x.getLsbD ((i + 18) % 32) ^^ (decide (i < 29) && x.getLsbD (i + 3))) ∧
    (ssig1 x).getLsbD i = (x.getLsbD ((i + 17) % 32) ^^ x.getLsbD ((i + 19) % 32) ^^ (decide (i < 22) && x.getLsbD (i + 10))) ∧
    (bsig0 x).getLsbD i = (x.getLsbD ((i + 2) % 32) ^^ x.getLsbD ((i + 13) % 32) ^^ x.getLsbD ((i + 22) % 32)) ∧
    (bsig1 x).getLsbD i = (x.getLsbD ((i + 6) % 32) ^^ x.getLsbD ((i + 11) % 32) ^^ x.getLsbD ((i + 25) % 32))

/-- Bit `i` of `rotr(x, n)` is bit `(i + n) mod 32` of `x`; bit `i` of `x >> n` is bit `i + n` of `x`, zeros entering from
the left (R15, definitions the spec takes from general knowledge, log entry 12). -/
def Obligations.RotateAndShiftMoveBits : Prop :=
  ∀ (x : Word) (n i : Nat), i < 32 →
    (1 ≤ n → n ≤ 31 → (rotr x n).getLsbD i = x.getLsbD ((i + n) % 32)) ∧
    (n ≤ 31 → (shr x n).getLsbD i = if i + n < 32 then x.getLsbD (i + n) else false)

/-- The constants are what R26 and R27 say they are: the first 32 bits of the fractional parts of the square roots of the
first 8 primes and of the cube roots of the first 64 (values the spec takes from general knowledge, log entry 12). -/
def Obligations.ConstantsAreRootsOfPrimes : Prop :=
  smallPrimes.length = 64 ∧
  (∀ j : Fin 8, ∃ r, r ^ 2 ≤ smallPrimes.getD j.val 0 * 2 ^ 64 ∧ smallPrimes.getD j.val 0 * 2 ^ 64 < (r + 1) ^ 2 ∧
    IV[j] = BitVec.ofNat 32 r) ∧
  (∀ i : Fin 64, ∃ r, r ^ 3 ≤ smallPrimes.getD i.val 0 * 2 ^ 96 ∧ smallPrimes.getD i.val 0 * 2 ^ 96 < (r + 1) ^ 3 ∧
    K[i] = BitVec.ofNat 32 r)

/-! Byte order and the buffer (20_memory.md). -/

/-- R41: `be32(w)` is the bytes `w[31:24], w[23:16], w[15:8], w[7:0]`, and `be32` and `BE32` are inverse to each other,
both ways. -/
def Obligations.WordBytesRoundTrip : Prop :=
  (∀ w : Word, be32 w = [w.extractLsb' 24 8, w.extractLsb' 16 8, w.extractLsb' 8 8, w.extractLsb' 0 8]) ∧
  (∀ w : Word, BE32 ((be32 w).getD 0 0) ((be32 w).getD 1 0) ((be32 w).getD 2 0) ((be32 w).getD 3 0) = w) ∧
  (∀ b0 b1 b2 b3 : Byte, be32 (BE32 b0 b1 b2 b3) = [b0, b1, b2, b3])

/-- R40: `BE32(b0, b1, b2, b3)` is the number `b0 · 2^24 + b1 · 2^16 + b2 · 2^8 + b3`. -/
def Obligations.WordOfBytesIsBigEndianNumber : Prop :=
  ∀ b0 b1 b2 b3 : Byte,
    (BE32 b0 b1 b2 b3).toNat = b0.toNat * 2 ^ 24 + b1.toNat * 2 ^ 16 + b2.toNat * 2 ^ 8 + b3.toNat

/-- R42: the eight bytes of `be64(n)`, read most significant first, are `n`. -/
def Obligations.LengthBytesAreBigEndianNumber : Prop :=
  ∀ n : Count, (be64 n).length = 8 ∧ (be64 n).foldl (fun acc b => acc * 256 + b.toNat) 0 = n.toNat

/-- Reading after writing the block buffer: the bytes written read back, every other byte is as before (R16, R45). -/
def Obligations.BufferReadAfterWrite : Prop :=
  ∀ (buf : Memory) (a : Nat) (v : List Byte), a + v.length ≤ 64 →
    memRead (memWrite buf a v) a v.length = v ∧
    (∀ b n, b + n ≤ 64 → b + n ≤ a ∨ a + v.length ≤ b → memRead (memWrite buf a v) b n = memRead buf b n)

/-! PAD and FINAL (42_padder.md). -/

/-- R106, with the length field of R108 and the one compression of R109: with `r < 56` the one block is the `r` buffered
bytes, `0x80`, zeros up to offset 55, the bit count. -/
def Obligations.PadOneBlockCase : Prop :=
  ∀ s : State, s.fill < 56 → ∃ (t : State) (blk : Block), exec .pad s = .next t ∧ t.h = compressH s.h blk ∧
    t.bitCount = s.bitCount ∧
    (∀ j : Fin 64, j.val < s.fill → blk[j] = s.buf[j]) ∧
    (∀ j : Fin 64, j.val = s.fill → blk[j] = 0x80#8) ∧
    (∀ j : Fin 64, s.fill < j.val → j.val < 56 → blk[j] = 0#8) ∧
    (∀ k : Fin 8, blk[56 + k.val] = s.bitCount.extractLsb' (56 - 8 * k.val) 8)

/-- R107, with R108 and R109: with `r ≥ 56` the first block is the `r` buffered bytes, `0x80`, zeros; the second is 56
zeros and the bit count. -/
def Obligations.PadTwoBlockCase : Prop :=
  ∀ s : State, 56 ≤ s.fill → ∃ (t : State) (blk blk' : Block), exec .pad s = .next t ∧
    t.h = compressH (compressH s.h blk) blk' ∧ t.bitCount = s.bitCount ∧
    (∀ j : Fin 64, j.val < s.fill → blk[j] = s.buf[j]) ∧
    (∀ j : Fin 64, j.val = s.fill → blk[j] = 0x80#8) ∧
    (∀ j : Fin 64, s.fill < j.val → blk[j] = 0#8) ∧
    (∀ j : Fin 64, j.val < 56 → blk'[j] = 0#8) ∧
    (∀ k : Fin 8, blk'[56 + k.val] = s.bitCount.extractLsb' (56 - 8 * k.val) 8)

/-- R110: PAD writes `H` (through COMPRESS) only; `bitCount`, `buf` and the rest stay, the scratch space apart. -/
def Obligations.PadWritesOnlyH : Prop :=
  ∀ s t : State, exec .pad s = .next t → t = { s with h := t.h, scratch := t.scratch }

/-- R112 and R113: outside ACTIVE, FINAL is refused; in ACTIVE it completes, its digest is `be32(H[j])` of the `H` that
PAD leaves, `H[0]` first, handed to the host, and `phase` becomes FINALIZED. `H`, `bitCount`, `buf` are unspecified after
it: nothing is said of them. -/
def Obligations.FinalReturnsStateAfterPad : Prop :=
  ∀ s : State, (s.phase ≠ .active → exec .final s = .refused .finalOutsideLifecycle) ∧
    (s.phase = .active → ∃ u t, exec .pad s = .next u ∧ exec .final s = .next t ∧
      (∀ (j : Fin 8) (k : Fin 4), t.dout[4 * j.val + k.val] = u.h[j].extractLsb' (24 - 8 * k.val) 8) ∧
      t.phase = .finalized ∧ t.outcome = u.outcome ++ [t.dout])

/-- The frame of FINAL: the ports stay, and the record of digests grows by the one on the digest output (log entry 18).
Nothing is said of `H`, `bitCount`, `buf`: they are unspecified (R114). -/
def Obligations.FinalFrame : Prop :=
  ∀ s t : State, exec .final s = .next t →
    t.ports = s.ports ∧ t.resetLine = s.resetLine ∧ t.outcome = s.outcome ++ [t.dout]

/-- R115: with `phase = FINALIZED`, which FINAL leaves, UPDATE and FINAL are refused; INIT is always allowed. -/
def Obligations.AfterFinalOnlyInitIsAccepted : Prop :=
  (∀ s t : State, exec .final s = .next t → t.phase = .finalized) ∧
  (∀ t : State, t.phase = .finalized →
    (∀ data : List Byte, exec (.update data) t = .refused .updateOutsideLifecycle) ∧
    exec .final t = .refused .finalOutsideLifecycle) ∧
  (∀ t : State, ∃ u, exec .init t = .next u)

/-- FINAL of a Context that holds `m` returns the digest of the padded message (R73, R111, R132). -/
def Obligations.FinalDigestsHeldMessage : Prop :=
  ∀ (m : List Byte) (s : State), Holds m s → 8 * m.length < 2 ^ 64 →
    ∃ t, exec .final s = .next t ∧ t.dout = messageDigest m

/-- The padded message is a whole number of Blocks, one more than the message's whole Blocks, or two (R73). -/
def Obligations.PaddedMessageLength : Prop :=
  ∀ m : List Byte, (paddedMessage m).length =
    if m.length % 64 < 56 then 64 * (m.length / 64 + 1) else 64 * (m.length / 64 + 2)

/-- How often COMPRESS runs. An UPDATE is the compression of `floor((r + len) / 64)` Blocks, one after the other, and a
change of `bitCount` and `buf` (R131); these numbers add up to `floor(L / 64)` however a message is split. PAD is the
compression of one Block or of two (R111), and FINAL returns what they leave. From INIT to FINAL a whole message is
compressed in the Blocks of UPDATE and then those of PAD, `floor(L / 64) + 1` or `+ 2` in all, and these are the Blocks of
the padded message (R73, R174). -/
def Obligations.CompressionCounts : Prop :=
  (∀ (data : List Byte) (s : State), s.phase = .active → s.bitCount.toNat + 8 * data.length < 2 ^ 64 →
    ∃ (t : State) (blks : List Block), exec (.update data) s = .next t ∧
      t = { compressBlocks blks s with bitCount := t.bitCount, buf := t.buf } ∧
      blks = blocksOf (memRead s.buf 0 s.fill ++ data) ∧ blks.length = (s.fill + data.length) / 64) ∧
  (∀ (m data : List Byte) (s : State), Holds m s →
    m.length / 64 + (s.fill + data.length) / 64 = (m ++ data).length / 64) ∧
  (∀ s : State, ∃ t : State, exec .pad s = .next t ∧ t = compressBlocks (padBlocks s.buf s.bitCount) s ∧
    (padBlocks s.buf s.bitCount).length = (if s.fill < 56 then 1 else 2) ∧
    (s.phase = .active → ∃ u : State, exec .final s = .next u ∧ u.dout = digestOf t.h)) ∧
  (∀ (m : List Byte) (s : State), 8 * m.length < 2 ^ 64 →
    ∃ (s0 t u : State) (us ps : List Block), exec .init s = .next s0 ∧ exec (.update m) s0 = .next t ∧
      exec .final t = .next u ∧ t.h = (compressBlocks us s0).h ∧ t.scratch = (compressBlocks us s0).scratch ∧
      ps = padBlocks t.buf t.bitCount ∧ u.dout = digestOf (compressBlocks ps t).h ∧
      us ++ ps = blocksOf (paddedMessage m) ∧ us.length = m.length / 64 ∧
      (us ++ ps).length = if m.length % 64 < 56 then m.length / 64 + 1 else m.length / 64 + 2)

/-- Buffer bytes at and above the fill never reach a digest (R35, R116): Contexts that agree below the fill give the same
digest. -/
def Obligations.StaleBytesNeverReachDigest : Prop :=
  ∀ s s' t t' : State, SameContext s s' → exec .final s = .next t → exec .final s' = .next t' → t.dout = t'.dout

/-- Nor do they reach the Context through UPDATE (R35): Contexts that agree below the fill still do after it, and both are
refused or neither. -/
def Obligations.StaleBytesNeverReachContext : Prop :=
  ∀ (data : List Byte) (s s' : State), SameContext s s' →
    (∃ r, exec (.update data) s = .refused r ∧ exec (.update data) s' = .refused r) ∨
    (∃ t t', exec (.update data) s = .next t ∧ exec (.update data) s' = .next t' ∧ SameContext t t')

/-! The Façade (44_facade.md). -/

/-- HASH, from any state with reset released, returns the digest of the padded message and leaves FINALIZED (R135). Where
earlier commands stand on the ports, that HASH runs in front of them is the model's choice (log entry 22), here and in the
statements on DOUBLEHASH. -/
def Obligations.HashReturnsMessageDigest : Prop :=
  ∀ (m : List Byte) (s : State), s.resetLine = .released → m.length < 2 ^ 61 →
    ∃ t, hostHash m s = .next t ∧ t.dout = messageDigest m ∧ t.phase = .finalized ∧ t.ports = s.ports ∧
      t.outcome = s.outcome ++ [messageDigest m]

/-- R137: for a message of 32 bytes DOUBLEHASH is the hash of the hash. -/
def Obligations.DoubleHashOf32BytesIsConventional : Prop :=
  ∀ (m : List Byte) (s : State), s.resetLine = .released → m.length = 32 →
    ∃ t, hostDoubleHash m s = .next t ∧ t.dout = messageDigest (messageDigest m).toList

/-- For a shorter message the second pass hashes the first `n` bytes of the digest and nothing else (R138). -/
def Obligations.DoubleHashOfShortMessageHashesPrefix : Prop :=
  ∀ (m : List Byte) (s : State), s.resetLine = .released → m.length < 32 →
    ∃ t, hostDoubleHash m s = .next t ∧ t.dout = messageDigest ((messageDigest m).toList.take m.length)

/-- For a longer message it completes, hashing the digest followed by `n - 32` bytes of which nothing is known. R139 lets a
model refuse instead; that DOUBLEHASH completes with a draw is the model's choice (log entry 16). -/
def Obligations.DoubleHashOfLongMessageOverreads : Prop :=
  ∀ (m : List Byte) (s : State), s.resetLine = .released → 32 < m.length → m.length < 2 ^ 61 →
    ∃ (x : List Byte) (t : State), x.length = m.length - 32 ∧ hostDoubleHash m s = .next t ∧
      t.dout = messageDigest ((messageDigest m).toList ++ x)

/-! The whole machine. -/

/-- Every step keeps the Context invariant (R23): in ACTIVE the Context holds some message. -/
def Obligations.StepKeepsContextInvariant : Prop :=
  ∀ s t : State, ContextInv s → step s = .next t → ContextInv t

/-- The invariant holds after reset. -/
def Obligations.ResetHasContextInvariant : Prop := ContextInv State.reset

/-- R168 and R176: a command sequence that keeps the lifecycle and the length bound runs to its end without a refusal,
and the digests it returns are those of its messages, in order; `m` is the message already in progress, if any. Where other commands stand on the
ports, that the sequence runs in front of them is the model's choice (log entry 22). -/
def Obligations.ConformingRunsReturnTheirDigests : Prop :=
  ∀ (is : List Instr) (m : List Byte) (s : State), s.resetLine = .released →
    (s.phase ≠ .active ∧ m = [] ∨ Holds m s) → lifecycle s.phase is = true → withinBound (8 * m.length) is = true →
    ∃ t, issueAll is s = .next t ∧ t.outcome = s.outcome ++ expectedDigests m is ∧ t.ports = s.ports

/-- A command sequence in which an UPDATE or a FINAL has no INIT before it, or has a FINAL in between, is refused (R168); one
that keeps the lifecycle runs to its end, within the length bound (R126). Where other commands stand on the ports, that the
sequence runs in front of them is the model's choice (log entry 22). -/
def Obligations.LifecycleDecidesRefusal : Prop :=
  ∀ (is : List Instr) (s : State), s.resetLine = .released → (∀ i ∈ is, i.wellFormed = true) →
    (lifecycle s.phase is = false → ∃ r, issueAll is s = .refused r) ∧
    (lifecycle s.phase is = true → withinBound s.bitCount.toNat is = true → ∃ t, issueAll is s = .next t)

/-- Only FINAL hands data to the host (R49): a step that changes the record of digests is a FINAL in ACTIVE, and the new
digest is the one on the digest output. -/
def Obligations.OnlyFinalReturnsData : Prop :=
  ∀ s t : State, step s = .next t → t.outcome ≠ s.outcome →
    s.resetLine = .released ∧ s.phase = .active ∧ (∃ rest, portDecode s.ports = .command .final rest) ∧
      t.outcome = s.outcome ++ [t.dout]

/-- Only reset, INIT and FINAL change the lifecycle variable, each to its own value (R29, R36). -/
def Obligations.OnlyResetInitFinalChangePhase : Prop :=
  ∀ s t : State, step s = .next t →
    t.phase = s.phase ∨ (t.phase = .uninit ∧ s.resetLine ≠ .released) ∨
    (t.phase = .active ∧ ∃ rest, portDecode s.ports = .command .init rest) ∨
    (t.phase = .finalized ∧ s.phase = .active ∧ ∃ rest, portDecode s.ports = .command .final rest)

/-- The second reading of R148: under it no command stops the engine, it agrees with the step wherever the step goes on,
and where the step refuses a whole command or a reserved byte, the engine goes on in UNINIT and no digest is handed
over. That the digests handed over before stay in the record, what is left on the ports then, and that an UPDATE with data still to come waits even where its preconditions fail,
is the model's choice (log entry 9). -/
def Obligations.MisuseReadingNeverStops : Prop :=
  ∀ s : State, ∃ t, stepOrMisuse s = .next t ∧ (∀ u, step s = .next u → t = u) ∧
    (∀ (i : Instr) (rest : Ports) (r : Refusal), s.resetLine = .released → portDecode s.ports = .command i rest →
      step s = .refused r → t.phase = .uninit ∧ t.outcome = s.outcome ∧ t.ports = rest) ∧
    (∀ cmd : Byte, s.resetLine = .released → portDecode s.ports = .reserved cmd →
      step s = .refused .reservedCommand ∧ t.phase = .uninit ∧ t.outcome = s.outcome ∧
      t.ports = { s.ports with cmd := s.ports.cmd.tail }) ∧
    (∀ len : Count, s.resetLine = .released → portDecode s.ports = .awaitData len → t = s)
end

