-- ==== Sys2Proof/Laws/Memory.lean ====
section
/-!
SUPPORT. The block buffer: reading after writing, and its canonical form.
-/

namespace Sys2Proof.Machine

theorem memWrite_getElem (buf : Memory) (a : Nat) (v : List Byte) (j : Nat) (hj : j < 64) :
    (memWrite buf a v)[j] = if a ≤ j then v.getD (j - a) buf[j] else buf[j] := by
  simp [memWrite]

/-- Outside `a .. a + v.length - 1` a byte is as before. -/
theorem memWrite_outside (buf : Memory) (a : Nat) (v : List Byte) (j : Nat) (hj : j < 64)
    (h : j < a ∨ a + v.length ≤ j) : (memWrite buf a v)[j] = buf[j] := by
  rw [memWrite_getElem]
  split
  · rw [List.getD_eq_default _ _ (by omega)]
  · rfl

/-- Inside, it is the byte written. -/
theorem memWrite_inside (buf : Memory) (a : Nat) (v : List Byte) (j : Nat) (hj : j < 64)
    (h : a ≤ j) (h' : j - a < v.length) : (memWrite buf a v)[j] = v[j - a] := by
  rw [memWrite_getElem, if_pos h, List.getD_eq_getElem _ _ h']

@[simp] theorem memWrite_nil (buf : Memory) (a : Nat) : memWrite buf a [] = buf := by
  apply Vector.ext
  intro j hj
  rw [memWrite_outside _ _ _ _ _ (by simp; omega)]

theorem memRead_length (buf : Memory) (a n : Nat) (h : a + n ≤ 64) : (memRead buf a n).length = n := by
  simp [memRead]; omega

theorem memRead_getElem? (buf : Memory) (a n j : Nat) (h : a + n ≤ 64) (hj : j < n) :
    (memRead buf a n)[j]? = some buf[a + j] := by
  simp only [memRead, List.getElem?_take, List.getElem?_drop, if_pos hj]
  rw [List.getElem?_eq_getElem (by simp; omega)]
  simp

theorem memRead_getElem (buf : Memory) (a n j : Nat) (h : a + n ≤ 64) (hj : j < n) :
    (memRead buf a n)[j]'(by rw [memRead_length _ _ _ h]; exact hj) = buf[a + j] := by
  have := memRead_getElem? buf a n j h hj
  rw [List.getElem?_eq_getElem (by rw [memRead_length _ _ _ h]; exact hj)] at this
  exact Option.some.inj this

/-- The buffer written out as host cells has the canonical form, whatever operation made the buffer. -/
theorem cells_wf (buf : Memory) : Memory.wf (Memory.cells buf) = true := by
  simp only [Memory.wf, Memory.cells, List.map_map, decide_eq_true_eq]
  rfl

/-- Equal cells are equal buffers. -/
theorem cells_injective (p q : Memory) (h : Memory.cells p = Memory.cells q) : p = q := by
  apply Vector.ext
  intro j hj
  have := congrArg (fun l => l[j]?) h
  simpa [Memory.cells, hj] using this

end Sys2Proof.Machine
end

