-- ==== Sys2Proof/Laws/State.lean ====
section
/-!
SUPPORT. One lemma per field per update, so that no proof unfolds a record update.
-/

namespace Sys2Proof.Machine

section

variable (d : Digest) (s : State)

@[simp] theorem out_phase : (out d s).phase = s.phase := rfl
@[simp] theorem out_h : (out d s).h = s.h := rfl
@[simp] theorem out_bitCount : (out d s).bitCount = s.bitCount := rfl
@[simp] theorem out_buf : (out d s).buf = s.buf := rfl
@[simp] theorem out_dout : (out d s).dout = d := rfl
@[simp] theorem out_scratch : (out d s).scratch = s.scratch := rfl
@[simp] theorem out_ports : (out d s).ports = s.ports := rfl
@[simp] theorem out_resetLine : (out d s).resetLine = s.resetLine := rfl
@[simp] theorem out_outcome : (out d s).outcome = s.outcome ++ [d] := rfl
@[simp] theorem out_draws : (out d s).draws = s.draws := rfl

end

section

variable (s : State)

@[simp] theorem forgetContext_phase : (forgetContext s).phase = s.phase := rfl
@[simp] theorem forgetContext_h : (forgetContext s).h = Config.freeH s.draws := rfl
@[simp] theorem forgetContext_bitCount : (forgetContext s).bitCount = Config.freeBitCount s.draws := rfl
@[simp] theorem forgetContext_buf : (forgetContext s).buf = Config.freeBuf s.draws := rfl
@[simp] theorem forgetContext_dout : (forgetContext s).dout = s.dout := rfl
@[simp] theorem forgetContext_scratch : (forgetContext s).scratch = s.scratch := rfl
@[simp] theorem forgetContext_ports : (forgetContext s).ports = s.ports := rfl
@[simp] theorem forgetContext_resetLine : (forgetContext s).resetLine = s.resetLine := rfl
@[simp] theorem forgetContext_outcome : (forgetContext s).outcome = s.outcome := rfl
@[simp] theorem forgetContext_draws : (forgetContext s).draws = s.draws + 1 := rfl

end

section

variable (s : State)

@[simp] theorem scrambleScratch_phase : (scrambleScratch s).phase = s.phase := rfl
@[simp] theorem scrambleScratch_h : (scrambleScratch s).h = s.h := rfl
@[simp] theorem scrambleScratch_bitCount : (scrambleScratch s).bitCount = s.bitCount := rfl
@[simp] theorem scrambleScratch_buf : (scrambleScratch s).buf = s.buf := rfl
@[simp] theorem scrambleScratch_dout : (scrambleScratch s).dout = s.dout := rfl
@[simp] theorem scrambleScratch_scratch : (scrambleScratch s).scratch = freeScratch s.draws := rfl
@[simp] theorem scrambleScratch_ports : (scrambleScratch s).ports = s.ports := rfl
@[simp] theorem scrambleScratch_resetLine : (scrambleScratch s).resetLine = s.resetLine := rfl
@[simp] theorem scrambleScratch_outcome : (scrambleScratch s).outcome = s.outcome := rfl
@[simp] theorem scrambleScratch_draws : (scrambleScratch s).draws = s.draws + 1 := rfl

end

section

variable (s : State)

@[simp] theorem scrambleDout_phase : (scrambleDout s).phase = s.phase := rfl
@[simp] theorem scrambleDout_h : (scrambleDout s).h = s.h := rfl
@[simp] theorem scrambleDout_bitCount : (scrambleDout s).bitCount = s.bitCount := rfl
@[simp] theorem scrambleDout_buf : (scrambleDout s).buf = s.buf := rfl
@[simp] theorem scrambleDout_dout : (scrambleDout s).dout = Config.freeDout s.draws := rfl
@[simp] theorem scrambleDout_scratch : (scrambleDout s).scratch = s.scratch := rfl
@[simp] theorem scrambleDout_ports : (scrambleDout s).ports = s.ports := rfl
@[simp] theorem scrambleDout_resetLine : (scrambleDout s).resetLine = s.resetLine := rfl
@[simp] theorem scrambleDout_outcome : (scrambleDout s).outcome = s.outcome := rfl
@[simp] theorem scrambleDout_draws : (scrambleDout s).draws = s.draws + 1 := rfl

end

section

variable (rest : Ports) (s : State)

@[simp] theorem acceptCommand_phase : (acceptCommand rest s).phase = s.phase := rfl
@[simp] theorem acceptCommand_h : (acceptCommand rest s).h = s.h := rfl
@[simp] theorem acceptCommand_bitCount : (acceptCommand rest s).bitCount = s.bitCount := rfl
@[simp] theorem acceptCommand_buf : (acceptCommand rest s).buf = s.buf := rfl
@[simp] theorem acceptCommand_dout : (acceptCommand rest s).dout = Config.freeDout s.draws := rfl
@[simp] theorem acceptCommand_scratch : (acceptCommand rest s).scratch = s.scratch := rfl
@[simp] theorem acceptCommand_ports : (acceptCommand rest s).ports = rest := rfl
@[simp] theorem acceptCommand_resetLine : (acceptCommand rest s).resetLine = s.resetLine := rfl
@[simp] theorem acceptCommand_outcome : (acceptCommand rest s).outcome = s.outcome := rfl
@[simp] theorem acceptCommand_draws : (acceptCommand rest s).draws = s.draws + 1 := rfl

end

section

variable (rest : Ports) (s : State)

@[simp] theorem applyReset_phase : (applyReset rest s).phase = .uninit := rfl
@[simp] theorem applyReset_h : (applyReset rest s).h = Config.freeH s.draws := rfl
@[simp] theorem applyReset_bitCount : (applyReset rest s).bitCount = Config.freeBitCount s.draws := rfl
@[simp] theorem applyReset_buf : (applyReset rest s).buf = Config.freeBuf s.draws := rfl
@[simp] theorem applyReset_dout : (applyReset rest s).dout = Config.freeDout s.draws := rfl
@[simp] theorem applyReset_scratch : (applyReset rest s).scratch = freeScratch s.draws := rfl
@[simp] theorem applyReset_ports : (applyReset rest s).ports = rest := rfl
@[simp] theorem applyReset_resetLine : (applyReset rest s).resetLine = .released := rfl
@[simp] theorem applyReset_outcome : (applyReset rest s).outcome = s.outcome := rfl
@[simp] theorem applyReset_draws : (applyReset rest s).draws = s.draws + 1 := rfl

end

section

variable (i : Instr) (s : State)

@[simp] theorem present_phase : (present i s).phase = s.phase := rfl
@[simp] theorem present_h : (present i s).h = s.h := rfl
@[simp] theorem present_bitCount : (present i s).bitCount = s.bitCount := rfl
@[simp] theorem present_buf : (present i s).buf = s.buf := rfl
@[simp] theorem present_dout : (present i s).dout = s.dout := rfl
@[simp] theorem present_scratch : (present i s).scratch = s.scratch := rfl
@[simp] theorem present_ports : (present i s).ports = (encode i).append s.ports := rfl
@[simp] theorem present_resetLine : (present i s).resetLine = s.resetLine := rfl
@[simp] theorem present_outcome : (present i s).outcome = s.outcome := rfl
@[simp] theorem present_draws : (present i s).draws = s.draws := rfl

end

section

variable (blk : Block) (s : State)

@[simp] theorem compressBlock_phase : (compressBlock blk s).phase = s.phase := rfl
@[simp] theorem compressBlock_h : (compressBlock blk s).h = compressH s.h blk := rfl
@[simp] theorem compressBlock_bitCount : (compressBlock blk s).bitCount = s.bitCount := rfl
@[simp] theorem compressBlock_buf : (compressBlock blk s).buf = s.buf := rfl
@[simp] theorem compressBlock_dout : (compressBlock blk s).dout = s.dout := rfl
@[simp] theorem compressBlock_ports : (compressBlock blk s).ports = s.ports := rfl
@[simp] theorem compressBlock_resetLine : (compressBlock blk s).resetLine = s.resetLine := rfl
@[simp] theorem compressBlock_outcome : (compressBlock blk s).outcome = s.outcome := rfl
@[simp] theorem compressBlock_draws : (compressBlock blk s).draws = s.draws := rfl

end

section

variable (n : Nat) (s : State)

@[simp] theorem countBits_phase : (countBits n s).phase = s.phase := rfl
@[simp] theorem countBits_h : (countBits n s).h = s.h := rfl
@[simp] theorem countBits_bitCount : (countBits n s).bitCount = s.bitCount + BitVec.ofNat 64 (8 * n) := rfl
@[simp] theorem countBits_buf : (countBits n s).buf = s.buf := rfl
@[simp] theorem countBits_dout : (countBits n s).dout = s.dout := rfl
@[simp] theorem countBits_scratch : (countBits n s).scratch = s.scratch := rfl
@[simp] theorem countBits_ports : (countBits n s).ports = s.ports := rfl
@[simp] theorem countBits_resetLine : (countBits n s).resetLine = s.resetLine := rfl
@[simp] theorem countBits_outcome : (countBits n s).outcome = s.outcome := rfl
@[simp] theorem countBits_draws : (countBits n s).draws = s.draws := rfl

end

section

variable (a : Nat) (v : List Byte) (s : State)

@[simp] theorem bufferBytes_phase : (bufferBytes a v s).phase = s.phase := by cases s; rfl
@[simp] theorem bufferBytes_h : (bufferBytes a v s).h = s.h := by cases s; rfl
@[simp] theorem bufferBytes_bitCount : (bufferBytes a v s).bitCount = s.bitCount := by cases s; rfl
@[simp] theorem bufferBytes_buf : (bufferBytes a v s).buf = memWrite s.buf a v := by cases s; rfl
@[simp] theorem bufferBytes_dout : (bufferBytes a v s).dout = s.dout := by cases s; rfl
@[simp] theorem bufferBytes_scratch : (bufferBytes a v s).scratch = s.scratch := by cases s; rfl
@[simp] theorem bufferBytes_ports : (bufferBytes a v s).ports = s.ports := by cases s; rfl
@[simp] theorem bufferBytes_resetLine : (bufferBytes a v s).resetLine = s.resetLine := by cases s; rfl
@[simp] theorem bufferBytes_outcome : (bufferBytes a v s).outcome = s.outcome := by cases s; rfl
@[simp] theorem bufferBytes_draws : (bufferBytes a v s).draws = s.draws := by cases s; rfl

end

end Sys2Proof.Machine
end

