-- ==== Sys2Proof/Laws/Compression.lean ====
section
/-!
SUPPORT. What COMPRESS, SCHED and PAD do to the state, field by field, and the schedule recurrence of the word list.
-/

namespace Sys2Proof.Machine

@[simp] theorem scheduleWords_length (blk : Block) (n : Nat) : (scheduleWords blk n).length = n := by
  induction n with
  | zero => rfl
  | succ n ih => simp [scheduleWords, extendSchedule, ih]

/-- The words already made stay as they are. -/
theorem scheduleWords_getD (blk : Block) (n m i : Nat) (hi : i < n) (hm : n ≤ m) :
    (scheduleWords blk m).getD i 0 = (scheduleWords blk n).getD i 0 := by
  induction m, hm using Nat.le_induction with
  | base => rfl
  | succ m hm ih =>
    rw [← ih, scheduleWords, extendSchedule]
    simp [List.getD_eq_getElem?_getD, List.getElem?_append_left (show i < (scheduleWords blk m).length by simp; omega)]

/-- Word `i` is the next word after the `i` words before it. -/
theorem scheduleWords_last (blk : Block) (m i : Nat) (hi : i < m) :
    (scheduleWords blk m).getD i 0 = nextScheduleWord blk (scheduleWords blk i) i := by
  rw [scheduleWords_getD blk (i + 1) m i (by omega) (by omega)]
  simp [scheduleWords, extendSchedule, List.getD_eq_getElem?_getD]

theorem schedule_getElem (blk : Block) (i : Nat) (hi : i < 64) :
    (schedule blk)[i] = (scheduleWords blk 64).getD i 0 := by
  simp only [schedule, Vector.getElem_ofFn]

@[simp] theorem compressBlocks_nil (s : State) : compressBlocks [] s = s := rfl

@[simp] theorem compressBlocks_cons (b : Block) (bs : List Block) (s : State) :
    compressBlocks (b :: bs) s = compressBlocks bs (compressBlock b s) := rfl

theorem compressBlocks_append (bs cs : List Block) (s : State) :
    compressBlocks (bs ++ cs) s = compressBlocks cs (compressBlocks bs s) := by
  simp [compressBlocks]

/-- COMPRESS of several Blocks chains `H` through them. -/
@[simp] theorem compressBlocks_h (bs : List Block) (s : State) : (compressBlocks bs s).h = chain s.h bs := by
  induction bs generalizing s with
  | nil => rfl
  | cons b bs ih => simp [ih, chain]

/-- COMPRESS neither reads nor writes the counter and the buffer (R98). -/
theorem compressBlocks_context (bs : List Block) (c : Count) (buf : Memory) (s : State) :
    compressBlocks bs { s with bitCount := c, buf := buf } = { compressBlocks bs s with bitCount := c, buf := buf } := by
  induction bs generalizing s with
  | nil => rfl
  | cons b bs ih => exact ih (compressBlock b s)

section

variable (bs : List Block) (s : State)

@[simp] theorem compressBlocks_phase : (compressBlocks bs s).phase = s.phase := by
  induction bs generalizing s <;> simp_all

@[simp] theorem compressBlocks_bitCount : (compressBlocks bs s).bitCount = s.bitCount := by
  induction bs generalizing s <;> simp_all

@[simp] theorem compressBlocks_buf : (compressBlocks bs s).buf = s.buf := by
  induction bs generalizing s <;> simp_all

@[simp] theorem compressBlocks_dout : (compressBlocks bs s).dout = s.dout := by
  induction bs generalizing s <;> simp_all

@[simp] theorem compressBlocks_ports : (compressBlocks bs s).ports = s.ports := by
  induction bs generalizing s <;> simp_all

@[simp] theorem compressBlocks_resetLine : (compressBlocks bs s).resetLine = s.resetLine := by
  induction bs generalizing s <;> simp_all

@[simp] theorem compressBlocks_outcome : (compressBlocks bs s).outcome = s.outcome := by
  induction bs generalizing s <;> simp_all

@[simp] theorem compressBlocks_draws : (compressBlocks bs s).draws = s.draws := by
  induction bs generalizing s <;> simp_all

end

@[simp] theorem padContext_h (s : State) : (padContext s).h = chain s.h (padBlocks s.buf s.bitCount) := by
  simp [padContext]

@[simp] theorem padContext_phase (s : State) : (padContext s).phase = s.phase := by simp [padContext]
@[simp] theorem padContext_bitCount (s : State) : (padContext s).bitCount = s.bitCount := by simp [padContext]
@[simp] theorem padContext_buf (s : State) : (padContext s).buf = s.buf := by simp [padContext]
@[simp] theorem padContext_dout (s : State) : (padContext s).dout = s.dout := by simp [padContext]
@[simp] theorem padContext_ports (s : State) : (padContext s).ports = s.ports := by simp [padContext]
@[simp] theorem padContext_resetLine (s : State) : (padContext s).resetLine = s.resetLine := by simp [padContext]
@[simp] theorem padContext_outcome (s : State) : (padContext s).outcome = s.outcome := by simp [padContext]
@[simp] theorem padContext_draws (s : State) : (padContext s).draws = s.draws := by simp [padContext]

@[simp] theorem finalContext_phase (s : State) : (finalContext s).phase = .finalized := by
  simp only [finalContext, forgetContext_phase]
@[simp] theorem finalContext_dout (s : State) : (finalContext s).dout = digestOf (padContext s).h := by
  simp only [finalContext, forgetContext_dout, out_dout]
@[simp] theorem finalContext_outcome (s : State) :
    (finalContext s).outcome = s.outcome ++ [digestOf (padContext s).h] := by
  simp [finalContext]
@[simp] theorem finalContext_ports (s : State) : (finalContext s).ports = s.ports := by
  simp [finalContext]
@[simp] theorem finalContext_resetLine (s : State) : (finalContext s).resetLine = s.resetLine := by
  simp [finalContext]
@[simp] theorem finalContext_scratch (s : State) : (finalContext s).scratch = (padContext s).scratch := by
  simp only [finalContext, forgetContext_scratch, out_scratch]
@[simp] theorem finalContext_draws (s : State) : (finalContext s).draws = s.draws + 1 := by
  simp [finalContext]

end Sys2Proof.Machine
end

