-- ==== Sys2Proof/Laws/Decoding.lean ====
section
/-!
SUPPORT. What the decoders answer for each command byte (R61, R65), said once.
-/

namespace Sys2Proof

section

variable (cs : List Byte) (l : List Count) (d : List Byte)

@[simp] theorem decode_nil : decode ⟨[], l, d⟩ = .idle := rfl

@[simp] theorem decode_init : decode ⟨0x00#8 :: cs, l, d⟩ = .command .init ⟨cs, l, d⟩ := by
  simp only [decode, show zeroField 0x00#8 = 0#4 by decide, show (opField 0x00#8).toNat = 0 by decide]
  rfl

@[simp] theorem decode_update : decode ⟨0x01#8 :: cs, l, d⟩ = decodeUpdate cs l d := by
  simp only [decode, show zeroField 0x01#8 = 0#4 by decide, show (opField 0x01#8).toNat = 1 by decide]
  rfl

@[simp] theorem decode_final : decode ⟨0x02#8 :: cs, l, d⟩ = .command .final ⟨cs, l, d⟩ := by
  simp only [decode, show zeroField 0x02#8 = 0#4 by decide, show (opField 0x02#8).toNat = 2 by decide]
  rfl

@[simp] theorem decode_sched : decode ⟨0x08#8 :: cs, l, d⟩ = .command .sched ⟨cs, l, d⟩ := by
  simp only [decode, show zeroField 0x08#8 = 0#4 by decide, show (opField 0x08#8).toNat = 8 by decide]
  rfl

@[simp] theorem decode_round : decode ⟨0x09#8 :: cs, l, d⟩ = .command .round ⟨cs, l, d⟩ := by
  simp only [decode, show zeroField 0x09#8 = 0#4 by decide, show (opField 0x09#8).toNat = 9 by decide]
  rfl

@[simp] theorem decode_compress : decode ⟨0x0A#8 :: cs, l, d⟩ = .command .compress ⟨cs, l, d⟩ := by
  simp only [decode, show zeroField 0x0A#8 = 0#4 by decide, show (opField 0x0A#8).toNat = 10 by decide]
  rfl

@[simp] theorem decode_pad : decode ⟨0x0B#8 :: cs, l, d⟩ = .command .pad ⟨cs, l, d⟩ := by
  simp only [decode, show zeroField 0x0B#8 = 0#4 by decide, show (opField 0x0B#8).toNat = 11 by decide]
  rfl

/-- What the length and data ports decide for UPDATE (R67). -/
theorem decodeUpdate_nil : decodeUpdate cs [] d = .awaitLen := rfl

theorem decodeUpdate_short (len : Count) (h : d.length < len.toNat) :
    decodeUpdate cs (len :: l) d = .awaitData len := by
  simp [decodeUpdate, h]

theorem decodeUpdate_whole (len : Count) (h : len.toNat ≤ d.length) :
    decodeUpdate cs (len :: l) d = .command (.update (d.take len.toNat)) ⟨cs, l, d.drop len.toNat⟩ := by
  simp [decodeUpdate, Nat.not_lt.mpr h]

end

/-- The bytes of the code space (R61). -/
theorem decode_reserved (cmd : Byte) (cs : List Byte) (l : List Count) (d : List Byte)
    (h : cmd ∉ [0x00#8, 0x01#8, 0x02#8, 0x08#8, 0x09#8, 0x0A#8, 0x0B#8]) :
    decode ⟨cmd :: cs, l, d⟩ = .reserved cmd := by
  have key : ∀ c : Byte, c ∉ [0x00#8, 0x01#8, 0x02#8, 0x08#8, 0x09#8, 0x0A#8, 0x0B#8] → zeroField c = 0#4 →
      (opField c).toNat ∉ [0, 1, 2, 8, 9, 10, 11] := by decide
  unfold decode
  simp only
  split
  · rfl
  · have := key cmd h (Decidable.not_not.mp ‹_›)
    split <;> simp_all

/-- The two fields together are the byte (R60): a byte with `zero` 0 is its operation code. -/
theorem byte_of_fields (cmd : Byte) (n : Nat) (hz : zeroField cmd = 0#4) (ho : (opField cmd).toNat = n) :
    cmd = BitVec.ofNat 8 n := by
  subst ho
  revert hz
  revert cmd
  decide

end Sys2Proof
end

