-- ==== Sys2Proof/Laws/Streaming.lean ====
section
/-!
SUPPORT. What INIT, UPDATE and FINAL can do, once each, and what the absorbing of bytes writes.
-/

namespace Sys2Proof.Machine

/-- The loop of UPDATE is COMPRESS of the chunks in message order. -/
theorem compressInput_eq (data : List Byte) (n k : Nat) (s : State) :
    compressInput data n k s = compressBlocks ((List.range n).map fun q => inBlock data (k + 64 * q)) s := by
  induction n generalizing k s with
  | zero => rfl
  | succ n ih =>
    rw [compressInput, ih, List.range_succ_eq_map]
    simp only [List.map_cons, List.map_map, compressBlocks_cons, Nat.mul_zero, Nat.add_zero]
    have : (fun q => inBlock data (k + 64 + 64 * q)) = (fun q => inBlock data (k + 64 * q)) ∘ Nat.succ := by
      funext q
      rw [Function.comp_apply, Nat.mul_succ]
      rw [show k + 64 + 64 * q = k + (64 * q + 64) by omega]
    rw [this]

/-- The Blocks the compressing case of UPDATE feeds to COMPRESS: the completed buffer, then the chunks of the input. -/
def updateBlocks (r : Nat) (data : List Byte) (buf : Memory) : List Block :=
  memWrite buf r (data.take (64 - r)) ::
    (List.range ((data.length - (64 - r)) / 64)).map fun q => inBlock data (64 - r + 64 * q)

/-- The compressing case of UPDATE in one line. -/
theorem absorbBlocks_eq (r : Nat) (data : List Byte) (s : State) :
    absorbBlocks r data s =
      bufferBytes 0 (data.drop (64 - r + 64 * ((data.length - (64 - r)) / 64)))
        (compressBlocks (updateBlocks r data s.buf) (bufferBytes r (data.take (64 - r)) s)) := by
  simp only [absorbBlocks, compressInput_eq, updateBlocks, compressBlocks_cons, bufBlock, bufferBytes_buf]

/-- What UPDATE within its preconditions can do: nothing, buffer, or compress. -/
theorem absorb_cases (data : List Byte) (s : State) :
    (data = [] ∧ absorb data s = s) ∨
    (data ≠ [] ∧ s.fill + data.length < 64 ∧
      absorb data s = bufferBytes s.fill data (countBits data.length s)) ∨
    (data ≠ [] ∧ 64 ≤ s.fill + data.length ∧ absorb data s = absorbBlocks s.fill data (countBits data.length s)) := by
  unfold absorb buffersOnly
  split
  · left; exact ⟨List.length_eq_zero_iff.mp ‹_›, rfl⟩
  · right
    have hne : data ≠ [] := fun h => ‹¬ data.length = 0› (by simp [h])
    split
    · left; exact ⟨hne, of_decide_eq_true ‹_›, rfl⟩
    · right; refine ⟨hne, ?_, rfl⟩
      have := ‹¬ _›
      simp at this
      omega

section

variable (data : List Byte) (s : State)

@[simp] theorem absorb_phase : (absorb data s).phase = s.phase := by
  rcases absorb_cases data s with ⟨_, h⟩ | ⟨_, _, h⟩ | ⟨_, _, h⟩ <;> rw [h]
  · simp
  · simp [absorbBlocks_eq]

@[simp] theorem absorb_dout : (absorb data s).dout = s.dout := by
  rcases absorb_cases data s with ⟨_, h⟩ | ⟨_, _, h⟩ | ⟨_, _, h⟩ <;> rw [h]
  · simp
  · simp [absorbBlocks_eq]

@[simp] theorem absorb_ports : (absorb data s).ports = s.ports := by
  rcases absorb_cases data s with ⟨_, h⟩ | ⟨_, _, h⟩ | ⟨_, _, h⟩ <;> rw [h]
  · simp
  · simp [absorbBlocks_eq]

@[simp] theorem absorb_resetLine : (absorb data s).resetLine = s.resetLine := by
  rcases absorb_cases data s with ⟨_, h⟩ | ⟨_, _, h⟩ | ⟨_, _, h⟩ <;> rw [h]
  · simp
  · simp [absorbBlocks_eq]

@[simp] theorem absorb_outcome : (absorb data s).outcome = s.outcome := by
  rcases absorb_cases data s with ⟨_, h⟩ | ⟨_, _, h⟩ | ⟨_, _, h⟩ <;> rw [h]
  · simp
  · simp [absorbBlocks_eq]

@[simp] theorem absorb_draws : (absorb data s).draws = s.draws := by
  rcases absorb_cases data s with ⟨_, h⟩ | ⟨_, _, h⟩ | ⟨_, _, h⟩ <;> rw [h]
  · simp
  · simp [absorbBlocks_eq]

/-- `bitCount` grows by `8·len`, for the empty UPDATE too (R125). -/
theorem absorb_bitCount : (absorb data s).bitCount = s.bitCount + BitVec.ofNat 64 (8 * data.length) := by
  rcases absorb_cases data s with ⟨hd, h⟩ | ⟨_, _, h⟩ | ⟨_, _, h⟩ <;> rw [h]
  · simp [hd]
  · simp
  · simp [absorbBlocks_eq]

end

/-- The preconditions of UPDATE, one lemma per outcome (R150). -/
theorem updateRefusal_outside (len : Nat) (s : State) (h : s.phase ≠ .active) :
    updateRefusal len s = some .updateOutsideLifecycle := by
  rw [updateRefusal, if_pos h]

theorem updateRefusal_overflow (len : Nat) (s : State) (h : s.phase = .active)
    (hb : 2 ^ 64 ≤ s.bitCount.toNat + 8 * len) : updateRefusal len s = some .bitcountOverflow := by
  rw [updateRefusal, if_neg (by simp [h]), if_pos (show countOverflows s.bitCount len = true from decide_eq_true hb)]

theorem updateRefusal_within (len : Nat) (s : State) (h : s.phase = .active)
    (hb : s.bitCount.toNat + 8 * len < 2 ^ 64) : updateRefusal len s = none := by
  rw [updateRefusal, if_neg (by simp [h]), if_neg]
  simp only [countOverflows, decide_eq_true_eq]
  omega

/-- UPDATE is refused under two names only. -/
theorem updateRefusal_name (len : Nat) (s : State) (r : Refusal) (h : updateRefusal len s = some r) :
    r = .updateOutsideLifecycle ∨ r = .bitcountOverflow := by
  by_cases hp : s.phase = .active
  · by_cases hb : s.bitCount.toNat + 8 * len < 2 ^ 64
    · rw [updateRefusal_within _ _ hp hb] at h; cases h
    · rw [updateRefusal_overflow _ _ hp (by omega)] at h; cases h; exact .inr rfl
  · rw [updateRefusal_outside _ _ hp] at h; cases h; exact .inl rfl

theorem execUpdate_refused_iff (data : List Byte) (s : State) (r : Refusal) :
    execUpdate data s = .refused r ↔ updateRefusal data.length s = some r := by
  unfold execUpdate
  split <;> simp_all

theorem execFinal_refused_iff (s : State) (r : Refusal) :
    execFinal s = .refused r ↔ s.phase ≠ .active ∧ r = .finalOutsideLifecycle := by
  unfold execFinal finalRefusal
  by_cases hp : s.phase = .active
  · simp [hp]
  · simp [hp, eq_comm]

/-- UPDATE answers a next state exactly within its preconditions, and which one. -/
theorem execUpdate_next_iff (data : List Byte) (s t : State) :
    execUpdate data s = .next t ↔
      s.phase = .active ∧ s.bitCount.toNat + 8 * data.length < 2 ^ 64 ∧ t = absorb data s := by
  unfold execUpdate
  by_cases hp : s.phase = .active
  · by_cases hb : s.bitCount.toNat + 8 * data.length < 2 ^ 64
    · rw [updateRefusal_within _ _ hp hb]
      exact ⟨fun h => (by cases h; exact ⟨hp, hb, rfl⟩), fun h => by rw [h.2.2]⟩
    · rw [updateRefusal_overflow _ _ hp (by omega)]
      exact ⟨fun h => (by cases h), fun h => absurd h.2.1 hb⟩
  · rw [updateRefusal_outside _ _ hp]
    exact ⟨fun h => (by cases h), fun h => absurd h.1 hp⟩

/-- FINAL answers a next state exactly in ACTIVE, and which one. -/
theorem execFinal_next_iff (s t : State) :
    execFinal s = .next t ↔ s.phase = .active ∧ t = finalContext s := by
  unfold execFinal finalRefusal
  by_cases hp : s.phase = .active
  · simp [hp, eq_comm]
  · simp [hp]

/-- The refusals exec can answer: none of them is the command port's own. -/
theorem exec_refusal_name (i : Instr) (s : State) (r : Refusal) (h : exec i s = .refused r) :
    r = .updateOutsideLifecycle ∨ r = .bitcountOverflow ∨ r = .finalOutsideLifecycle := by
  cases i with
  | update data =>
    rcases updateRefusal_name _ _ _ ((execUpdate_refused_iff data s r).mp h) with h | h
    · exact .inl h
    · exact .inr (.inl h)
  | final => exact .inr (.inr ((execFinal_refused_iff s r).mp h).2)
  | init => cases h
  | sched => cases h
  | round => cases h
  | compress => cases h
  | pad => cases h

/-- INIT always answers a next state. -/
theorem execInit_next_iff (s t : State) :
    execInit s = .next t ↔ t = { s with h := IV, bitCount := 0#64, phase := .active } := by
  simp [execInit, eq_comm]

end Sys2Proof.Machine
end

