-- ==== Sys2Proof/Laws/Message.lean ====
section
/-!
SUPPORT. Blocks and tails of byte strings, and what absorbing bytes does to `H` and the buffered bytes, in one lemma.
-/

namespace Sys2Proof.Machine

@[simp] theorem fillOf_zero : fillOf 0#64 = 0 := by decide

theorem fillOf_lt (c : Count) : fillOf c < 64 := by unfold fillOf; omega

theorem fill_lt (s : State) : s.fill < 64 := fillOf_lt _

theorem inBlock_getElem (data : List Byte) (k j : Nat) (hj : j < 64) :
    (inBlock data k)[j] = data.getD (k + j) 0#8 := by
  simp [inBlock, inByte]

theorem inBlock_append_left (a b : List Byte) (k : Nat) (h : k + 64 ≤ a.length) :
    inBlock (a ++ b) k = inBlock a k := by
  apply Vector.ext
  intro j hj
  rw [inBlock_getElem, inBlock_getElem, List.getD_append _ _ _ _ (by omega)]

theorem inBlock_append_right (a b : List Byte) (k : Nat) : inBlock (a ++ b) (a.length + k) = inBlock b k := by
  apply Vector.ext
  intro j hj
  rw [inBlock_getElem, inBlock_getElem, List.getD_append_right _ _ _ _ (by omega)]
  congr 1
  omega

theorem chain_append (h : HashState) (bs cs : List Block) : chain h (bs ++ cs) = chain (chain h bs) cs := by
  simp [chain]

/-- Fewer than 64 bytes have no whole Block, and are their own tail. -/
theorem blocksOf_short (a : List Byte) (h : a.length < 64) : blocksOf a = [] := by
  simp [blocksOf, Nat.div_eq_of_lt h]

theorem tailOf_short (a : List Byte) (h : a.length < 64) : tailOf a = a := by
  simp [tailOf, Nat.div_eq_of_lt h]

theorem tailOf_length (a : List Byte) : (tailOf a).length = a.length % 64 := by
  simp [tailOf]; omega

/-- A string of whole Blocks in front. -/
theorem blocksOf_append (a b : List Byte) (h : a.length % 64 = 0) : blocksOf (a ++ b) = blocksOf a ++ blocksOf b := by
  have hl : (a ++ b).length / 64 = a.length / 64 + b.length / 64 := by rw [List.length_append]; omega
  have h1 : (List.range (a.length / 64)).map (fun q => inBlock (a ++ b) (64 * q)) =
      (List.range (a.length / 64)).map fun q => inBlock a (64 * q) := by
    apply List.map_congr_left
    intro q hq
    have := List.mem_range.mp hq
    rw [inBlock_append_left _ _ _ (by omega)]
  have h2 : (List.range (b.length / 64)).map ((fun q => inBlock (a ++ b) (64 * q)) ∘ fun x => a.length / 64 + x) =
      (List.range (b.length / 64)).map fun q => inBlock b (64 * q) := by
    apply List.map_congr_left
    intro q _
    have : 64 * (a.length / 64 + q) = a.length + 64 * q := by omega
    rw [Function.comp_apply, this, inBlock_append_right]
  unfold blocksOf
  rw [hl, List.range_add, List.map_append, List.map_map, h1, h2]

theorem tailOf_append (a b : List Byte) (h : a.length % 64 = 0) : tailOf (a ++ b) = tailOf b := by
  have hl : 64 * ((a ++ b).length / 64) = a.length + 64 * (b.length / 64) := by rw [List.length_append]; omega
  rw [tailOf, hl, List.drop_append, List.drop_eq_nil_of_le (by omega), List.nil_append, Nat.add_sub_cancel_left]
  rfl

/-- A byte string is its whole Blocks and its tail. -/
theorem whole_append_tail (a : List Byte) : a.take (64 * (a.length / 64)) ++ tailOf a = a :=
  List.take_append_drop _ _

theorem whole_length (a : List Byte) : (a.take (64 * (a.length / 64))).length % 64 = 0 := by
  simp; omega

theorem blocksOf_whole (a : List Byte) : blocksOf (a.take (64 * (a.length / 64))) = blocksOf a := by
  conv_rhs => rw [← whole_append_tail a]
  rw [blocksOf_append _ _ (whole_length a), blocksOf_short (tailOf a) (by rw [tailOf_length]; omega), List.append_nil]

/-- More bytes behind a string: only its tail matters for the Blocks still to come. -/
theorem blocksOf_append_tail (a b : List Byte) : blocksOf (a ++ b) = blocksOf a ++ blocksOf (tailOf a ++ b) := by
  conv_lhs => rw [← whole_append_tail a]
  rw [List.append_assoc, blocksOf_append _ _ (whole_length a), blocksOf_whole]

theorem tailOf_append_tail (a b : List Byte) : tailOf (a ++ b) = tailOf (tailOf a ++ b) := by
  conv_lhs => rw [← whole_append_tail a]
  rw [List.append_assoc, tailOf_append _ _ (whole_length a)]

/-- The completed buffer is the first Block of the buffered bytes followed by the input. -/
theorem completed_buffer (buf : Memory) (r : Nat) (data : List Byte) (hr : r < 64) (h : 64 ≤ r + data.length) :
    memWrite buf r (data.take (64 - r)) = inBlock (memRead buf 0 r ++ data) 0 := by
  have hl : (memRead buf 0 r).length = r := memRead_length _ _ _ (by omega)
  apply Vector.ext
  intro j hj
  rw [inBlock_getElem, Nat.zero_add, memWrite_getElem]
  by_cases hjr : r ≤ j
  · rw [if_pos hjr, List.getD_append_right _ _ _ _ (by omega), hl,
      List.getD_eq_getElem _ _ (by simp; omega), List.getD_eq_getElem _ _ (by omega), List.getElem_take]
  · rw [if_neg hjr, List.getD_append _ _ _ _ (by omega), List.getD_eq_getElem _ _ (by omega),
      memRead_getElem _ _ _ _ (by omega) (by omega)]
    simp

/-- The Blocks UPDATE compresses are the whole Blocks of the buffered bytes followed by the input. -/
theorem updateBlocks_eq (buf : Memory) (r : Nat) (data : List Byte) (hr : r < 64) (h : 64 ≤ r + data.length) :
    updateBlocks r data buf = blocksOf (memRead buf 0 r ++ data) := by
  have hl : (memRead buf 0 r).length = r := memRead_length _ _ _ (by omega)
  have hn : (memRead buf 0 r ++ data).length / 64 = (data.length - (64 - r)) / 64 + 1 := by
    rw [List.length_append, hl]; omega
  have h2 : (List.range ((data.length - (64 - r)) / 64)).map
        ((fun q => inBlock (memRead buf 0 r ++ data) (64 * q)) ∘ Nat.succ) =
      (List.range ((data.length - (64 - r)) / 64)).map fun q => inBlock data (64 - r + 64 * q) := by
    apply List.map_congr_left
    intro q _
    have : 64 * (q + 1) = (memRead buf 0 r).length + (64 - r + 64 * q) := by rw [hl]; omega
    rw [Function.comp_apply, Nat.succ_eq_add_one, this, inBlock_append_right]
  unfold updateBlocks blocksOf
  rw [hn, List.range_succ_eq_map, List.map_cons, List.map_map, completed_buffer buf r data hr h, h2]

/-- Bytes written from index 0 up read back, whatever stands behind them. -/
theorem memRead_memWrite_zero (buf : Memory) (v : List Byte) (h : v.length ≤ 64) :
    memRead (memWrite buf 0 v) 0 v.length = v := by
  apply List.ext_getElem
  · rw [memRead_length _ _ _ (by omega)]
  · intro j h1 h2
    rw [memRead_getElem _ _ _ _ (by omega) h2, memWrite_inside _ _ _ _ _ (by omega) (by omega)]
    simp

/-- Bytes written behind a prefix read back behind it. -/
theorem memRead_memWrite_append (buf : Memory) (r : Nat) (v : List Byte) (h : r + v.length ≤ 64) :
    memRead (memWrite buf r v) 0 (r + v.length) = memRead buf 0 r ++ v := by
  apply List.ext_getElem
  · rw [memRead_length _ _ _ (by omega), List.length_append, memRead_length _ _ _ (by omega)]
  · intro j h1 h2
    rw [memRead_length _ _ _ (by omega)] at h1
    have hl : (memRead buf 0 r).length = r := memRead_length _ _ _ (by omega)
    rw [memRead_getElem _ _ _ _ (by omega) h1]
    by_cases hjr : j < r
    · rw [List.getElem_append_left (by omega), memRead_getElem _ _ _ _ (by omega) hjr,
        memWrite_outside _ _ _ _ _ (by omega)]
    · rw [List.getElem_append_right (by omega), memWrite_inside _ _ _ _ _ (by omega) (by omega)]
      simp [hl]

/-- The fill after UPDATE. -/
theorem absorb_fill (data : List Byte) (s : State) (hb : s.bitCount.toNat + 8 * data.length < 2 ^ 64) :
    (absorb data s).fill = (s.fill + data.length) % 64 := by
  have hc : (s.bitCount + BitVec.ofNat 64 (8 * data.length)).toNat = s.bitCount.toNat + 8 * data.length := by
    rw [BitVec.toNat_add, BitVec.toNat_ofNat, Nat.mod_eq_of_lt (a := 8 * data.length) (by omega), Nat.mod_eq_of_lt hb]
  simp only [State.fill, fillOf, absorb_bitCount, hc]
  omega

/-- UPDATE is COMPRESS of the whole Blocks of the buffered bytes followed by the input, and a new counter and buffer. -/
theorem absorb_eq_compressBlocks (data : List Byte) (s : State) :
    absorb data s = { compressBlocks (blocksOf (memRead s.buf 0 s.fill ++ data)) s with
      bitCount := (absorb data s).bitCount, buf := (absorb data s).buf } := by
  have hr := fill_lt s
  have hl : (memRead s.buf 0 s.fill).length = s.fill := memRead_length _ _ _ (by omega)
  rcases absorb_cases data s with ⟨hd, h⟩ | ⟨_, hs, h⟩ | ⟨_, hs, h⟩ <;> rw [h]
  · subst hd
    rw [blocksOf_short _ (by simp; omega)]
    rfl
  · rw [blocksOf_short _ (by rw [List.length_append]; omega)]
    rfl
  · rw [absorbBlocks_eq, countBits_buf, updateBlocks_eq _ _ _ hr hs]
    simp only [bufferBytes, countBits, compressBlocks_context]

/-- UPDATE chains `H` through the whole Blocks of the buffered bytes followed by the input (R127, R128). -/
theorem absorb_h (data : List Byte) (s : State) :
    (absorb data s).h = chain s.h (blocksOf (memRead s.buf 0 s.fill ++ data)) := by
  have hr := fill_lt s
  have hl : (memRead s.buf 0 s.fill).length = s.fill := memRead_length _ _ _ (by omega)
  rcases absorb_cases data s with ⟨hd, h⟩ | ⟨_, hs, h⟩ | ⟨_, hs, h⟩ <;> rw [h]
  · subst hd
    rw [blocksOf_short _ (by simp; omega)]
    rfl
  · rw [blocksOf_short _ (by rw [List.length_append]; omega)]
    simp [chain]
  · rw [absorbBlocks_eq, bufferBytes_h, compressBlocks_h, countBits_buf, updateBlocks_eq _ _ _ hr hs]
    simp

/-- After UPDATE the buffered bytes are the tail of the buffered bytes followed by the input (R127, R128). -/
theorem absorb_pending (data : List Byte) (s : State) :
    memRead (absorb data s).buf 0 ((s.fill + data.length) % 64) = tailOf (memRead s.buf 0 s.fill ++ data) := by
  have hr := fill_lt s
  have hl : (memRead s.buf 0 s.fill).length = s.fill := memRead_length _ _ _ (by omega)
  rcases absorb_cases data s with ⟨hd, h⟩ | ⟨_, hs, h⟩ | ⟨_, hs, h⟩ <;> rw [h]
  · subst hd
    rw [tailOf_short _ (by simp; omega), List.append_nil, List.length_nil, Nat.add_zero, Nat.mod_eq_of_lt hr]
  · rw [tailOf_short _ (by rw [List.length_append]; omega), Nat.mod_eq_of_lt hs, bufferBytes_buf, countBits_buf,
      memRead_memWrite_append _ _ _ (by omega)]
  · have hk : 64 * ((memRead s.buf 0 s.fill ++ data).length / 64) =
        (memRead s.buf 0 s.fill).length + (64 - s.fill + 64 * ((data.length - (64 - s.fill)) / 64)) := by
      rw [List.length_append, hl]; omega
    have hd : (data.drop (64 - s.fill + 64 * ((data.length - (64 - s.fill)) / 64))).length =
        (s.fill + data.length) % 64 := by
      rw [List.length_drop]; omega
    rw [absorbBlocks_eq, bufferBytes_buf, ← hd, memRead_memWrite_zero _ _ (by rw [hd]; omega), tailOf, hk,
      List.drop_append, List.drop_eq_nil_of_le (as := memRead _ _ _) (by omega), List.nil_append,
      Nat.add_sub_cancel_left]

end Sys2Proof.Machine
end

