-- ==== Sys2Proof/Laws/Padding.lean ====
section
/-!
SUPPORT. The bytes of the padded blocks, and that PAD's Blocks are the Blocks of the buffered bytes followed by the
padding of R73.
-/

namespace Sys2Proof.Machine

theorem padHead_getElem (buf : Memory) (r j : Nat) (hj : j < 64) :
    (padHead buf r)[j] = if j < r then buf[j] else if j = r then padByte else 0#8 := by
  simp [padHead]

@[simp] theorem be64_length (n : Count) : (be64 n).length = 8 := rfl

theorem be64_getElem (n : Count) (k : Nat) (hk : k < (be64 n).length) :
    (be64 n)[k] = n.extractLsb' (56 - 8 * k) 8 := by
  have h : ∀ k : Fin 8, (be64 n)[k.val]'(by simp) = n.extractLsb' (56 - 8 * k.val) 8 := by
    intro k
    fin_cases k <;> rfl
  exact h ⟨k, hk⟩

theorem setLength_low (blk : Block) (n : Count) (j : Nat) (hj : j < 56) : (setLength blk n)[j] = blk[j] := by
  unfold setLength
  rw [memWrite_outside _ _ _ _ _ (by omega)]

theorem setLength_high (blk : Block) (n : Count) (k : Nat) (hk : k < 8) :
    (setLength blk n)[56 + k] = n.extractLsb' (56 - 8 * k) 8 := by
  unfold setLength
  rw [memWrite_inside _ _ _ _ _ (by omega) (by rw [be64_length]; omega), be64_getElem]
  rw [Nat.add_sub_cancel_left]

theorem padBlocks_one (buf : Memory) (c : Count) (h : fillOf c < 56) :
    padBlocks buf c = [setLength (padHead buf (fillOf c)) c] := by
  rw [padBlocks, padFits, if_pos (decide_eq_true h)]

theorem padBlocks_two (buf : Memory) (c : Count) (h : 56 ≤ fillOf c) :
    padBlocks buf c = [padHead buf (fillOf c), setLength zeroBlock c] := by
  rw [padBlocks, padFits, if_neg]
  simp only [decide_eq_true_eq]
  omega

/-- A string of 64 bytes is one Block. -/
theorem blocksOf_single (blk : Block) (l : List Byte) (h : l.length = 64)
    (hb : ∀ (j : Nat) (hj : j < 64), l[j] = blk[j]) : blocksOf l = [blk] := by
  have h0 : inBlock l (64 * 0) = blk := by
    apply Vector.ext
    intro j hj
    rw [inBlock_getElem, Nat.mul_zero, Nat.zero_add, List.getD_eq_getElem _ _ (by omega), hb j hj]
  have h1 : l.length / 64 = 1 := by omega
  rw [blocksOf, h1, List.range_one, List.map_singleton, h0]

/-- The bytes before the length field: buffered bytes, `0x80`, `z` zeros. -/
theorem head_getElem (buf : Memory) (r z j : Nat) (hr : r < 64) (hj : j < 64)
    (h : j < (memRead buf 0 r ++ [padByte] ++ List.replicate z 0#8).length) :
    (memRead buf 0 r ++ [padByte] ++ List.replicate z 0#8)[j] = (padHead buf r)[j] := by
  have hl : (memRead buf 0 r).length = r := memRead_length _ _ _ (by omega)
  rw [padHead_getElem]
  rcases Nat.lt_trichotomy j r with h1 | h1 | h1
  · rw [if_pos h1, List.getElem_append_left (by simp; omega), List.getElem_append_left (by omega),
      memRead_getElem _ _ _ _ (by omega) h1]
    simp
  · rw [if_neg (by omega), if_pos h1, List.getElem_append_left (by simp; omega), List.getElem_append_right (by omega)]
    simp
  · rw [if_neg (by omega), if_neg (by omega), List.getElem_append_right (by simp; omega)]
    simp

/-- PAD's Blocks are the Blocks of the buffered bytes followed by `0x80`, the zero fill and the length (R72, R73). -/
theorem padBlocks_eq (buf : Memory) (c : Count) :
    padBlocks buf c = blocksOf
      (memRead buf 0 (fillOf c) ++ [padByte] ++ List.replicate (zeroFill (fillOf c)) 0#8 ++ be64 c) := by
  have hr := fillOf_lt c
  have hl : (memRead buf 0 (fillOf c)).length = fillOf c := memRead_length _ _ _ (by omega)
  by_cases h : fillOf c < 56
  · have hz : zeroFill (fillOf c) = 55 - fillOf c := by unfold zeroFill; omega
    have hh : (memRead buf 0 (fillOf c) ++ [padByte] ++ List.replicate (zeroFill (fillOf c)) 0#8).length = 56 := by
      simp only [List.length_append, List.length_singleton, List.length_replicate, hl, hz]; omega
    rw [padBlocks_one _ _ h, blocksOf_single (setLength (padHead buf (fillOf c)) c)]
    · rw [List.length_append, hh, be64_length]
    · intro j hj
      rcases Nat.lt_or_ge j 56 with h5 | h5
      · rw [setLength_low _ _ _ h5, List.getElem_append_left (by omega), head_getElem _ _ _ _ hr hj]
      · obtain ⟨k, rfl⟩ := Nat.exists_eq_add_of_le h5
        rw [setLength_high _ _ _ (by omega), List.getElem_append_right (by omega), be64_getElem]
        rw [hh, Nat.add_sub_cancel_left]
  · have hz : zeroFill (fillOf c) = (63 - fillOf c) + 56 := by unfold zeroFill; omega
    have hh : (memRead buf 0 (fillOf c) ++ [padByte] ++ List.replicate (63 - fillOf c) 0#8).length = 64 := by
      simp only [List.length_append, List.length_singleton, List.length_replicate, hl]; omega
    have hs : memRead buf 0 (fillOf c) ++ [padByte] ++ List.replicate (zeroFill (fillOf c)) 0#8 ++ be64 c =
        (memRead buf 0 (fillOf c) ++ [padByte] ++ List.replicate (63 - fillOf c) 0#8) ++
          (List.replicate 56 0#8 ++ be64 c) := by
      rw [hz, List.replicate_add]
      simp only [List.append_assoc]
    rw [padBlocks_two _ _ (by omega), hs, blocksOf_append _ _ (by omega),
      blocksOf_single (padHead buf (fillOf c)) _ hh, blocksOf_single (setLength zeroBlock c)]
    · rfl
    · rw [List.length_append, List.length_replicate, be64_length]
    · intro j hj
      rcases Nat.lt_or_ge j 56 with h5 | h5
      · rw [setLength_low _ _ _ h5, List.getElem_append_left (by rw [List.length_replicate]; omega),
          List.getElem_replicate, zeroBlock, Vector.getElem_replicate]
      · obtain ⟨k, rfl⟩ := Nat.exists_eq_add_of_le h5
        rw [setLength_high _ _ _ (by omega),
          List.getElem_append_right (by rw [List.length_replicate]; omega), be64_getElem]
        rw [List.length_replicate, Nat.add_sub_cancel_left]
    · intro j hj
      rw [head_getElem _ _ _ _ hr hj]

end Sys2Proof.Machine
end

