-- ==== Sys2Proof/Laws/Step.lean ====
section
/-!
SUPPORT. What a step can do, said once: a reset, a wait, or one command.
-/

namespace Sys2Proof.Machine

/-- A next state of the end of a command is the next state of the command with its scratch space forgotten. -/
theorem endCommand_next_iff (o : Outcome) (t : State) :
    endCommand o = .next t ↔ ∃ u, o = .next u ∧ t = scrambleScratch u := by
  cases o <;> simp [endCommand, eq_comm]

theorem endCommand_refused_iff (o : Outcome) (r : Refusal) : endCommand o = .refused r ↔ o = .refused r := by
  cases o <;> simp [endCommand]

theorem step_released (s : State) (h : s.resetLine = .released) : step s = stepPort s := by
  rw [step, h]

/-- A step that answers a next state is a reset, a wait that changes nothing, or one host command. -/
theorem step_cases (s t : State) (h : step s = .next t) :
    (s.resetLine ≠ .released ∧ ∃ rest, t = applyReset rest s) ∨
    (s.resetLine = .released ∧ t = s) ∨
    (s.resetLine = .released ∧ ∃ i rest u, portDecode s.ports = .command i rest ∧
      exec i (acceptCommand rest s) = .next u ∧ t = scrambleScratch u) := by
  unfold step at h
  split at h
  · rename_i hr
    right
    unfold stepPort at h
    split at h
    · left; cases h; exact ⟨hr, rfl⟩
    · cases h
    · left; cases h; exact ⟨hr, rfl⟩
    · left
      unfold awaitData at h
      split at h
      · cases h
      · cases h; exact ⟨hr, rfl⟩
    · right
      obtain ⟨u, hu, rfl⟩ := (endCommand_next_iff _ _).mp h
      exact ⟨hr, _, _, u, ‹_›, hu, rfl⟩
  · left; cases h; exact ⟨by simp [*], _, rfl⟩
  · left; cases h; exact ⟨by simp [*], _, rfl⟩

/-- The command port never answers an internal operation (R64). -/
theorem portDecode_command_iff (p rest : Ports) (i : Instr) :
    portDecode p = .command i rest ↔ decode p = .command i rest ∧ isHostCommand i = true := by
  unfold portDecode
  split
  · rename_i j rest' h
    by_cases hj : isHostCommand j = true
    · simp only [hj, if_true, h]
      constructor
      · intro e; cases e; exact ⟨rfl, hj⟩
      · intro e; exact e.1
    · simp only [hj, h]
      constructor
      · intro e; simp at e
      · rintro ⟨e, hi⟩; cases e; exact absurd hi hj
  all_goals rename_i h; simp [h]

end Sys2Proof.Machine
end

