-- ==== Sys2Proof/Laws/PerInstr.lean ====
section
/-!
SUPPORT. Facts about every operation as syntax, one lemma per constructor: "every command is exactly one command byte
long" (R60), with the field `zero` 0.
-/

namespace Sys2Proof.Laws.OneByte

/-- The encoding of an operation has exactly one command byte, its code, and the code's bits 7:4 are zero (R60, R61). -/
def Statement (i : Instr) : Prop := (encode i).cmd = [opcode i] ∧ zeroField (opcode i) = 0#4

theorem init : Statement .init := ⟨rfl, by decide⟩
theorem update (data : List Byte) : Statement (.update data) := ⟨rfl, by show zeroField 0x01#8 = 0#4; decide⟩
theorem final : Statement .final := ⟨rfl, by decide⟩
theorem sched : Statement .sched := ⟨rfl, by decide⟩
theorem round : Statement .round := ⟨rfl, by decide⟩
theorem compress : Statement .compress := ⟨rfl, by decide⟩
theorem pad : Statement .pad := ⟨rfl, by decide⟩

end Sys2Proof.Laws.OneByte
end

