-- ==== Sys2Proof/Tests/Slice0.lean ====
section
/-!
SUPPORT. Tests and witnesses. Expected values are those printed in spec/95_test_vectors.md (the section is named at each
test) or the encodings of spec/30_encoding.md; none is the model's own answer. A `witness_…` theorem gives a concrete
state and operands that meet the hypotheses of the obligation it is named after.
-/

set_option maxRecDepth 100000

namespace Sys2Proof.Tests

open Sys2Proof Sys2Proof.Machine

/-! Helpers. -/

/-- One field of the next state. -/
def after {α : Type} (o : Outcome) (f : State → α) : Option α :=
  match o with
  | .next t => some (f t)
  | .fault _ => none
  | .refused _ => none

/-- The name under which an operation stops. -/
def stop (o : Outcome) : Option Refusal :=
  match o with
  | .next _ => none
  | .fault _ => none
  | .refused r => some r

/-- A State of zeros. -/
def zeros : HashState := Vector.replicate 8 0#32

/-- A Context in ACTIVE: State `h`, counter `bits`, every buffer byte `61`, those above the fill included. -/
def active (h : HashState) (bits : Nat) : State :=
  { State.reset with phase := .active, h := h, bitCount := BitVec.ofNat 64 bits, buf := Vector.replicate 64 0x61#8 }

/-- The bytes `a .. b-1`. -/
def bytes (a b : Nat) : List Byte := (List.range' a (b - a)).map (BitVec.ofNat 8)

/-- "a" `n` times. -/
def letters (n : Nat) : List Byte := List.replicate n 0x61#8

/-- "abc". -/
def abc : List Byte := [0x61#8, 0x62#8, 0x63#8]

/-- A byte string as one number, first byte most significant: how the spec prints a digest. -/
def number (v : List Byte) : Nat := v.foldl (fun n b => n * 256 + b.toNat) 0

/-- A row of words as one number, first word most significant: how the spec prints a State. -/
def wordsNumber (v : List Word) : Nat := v.foldl (fun n w => n * 2 ^ 32 + w.toNat) 0

/-- A state whose scratch block is `blk`. -/
def withBlock (blk : List Byte) (s : State) : State :=
  { s with scratch := { s.scratch with blk := Vector.ofFn fun j : Fin 64 => blk.getD j.val 0#8 } }

/-- The padded "abc" block of section 3. -/
def abcBlock : List Byte := abc ++ [0x80#8] ++ List.replicate 59 0x00#8 ++ [0x18#8]

/-- The state with `p` presented. -/
def presented (p : Ports) (s : State) : State := { s with ports := p }

/-! WellFormed: the one check, and an ill-formed term it refuses. -/

theorem test_wellFormed_refuses_length_beyond_port : (Instr.update (List.replicate (2 ^ 64) 0#8)).wellFormed = false := by
  simp only [Instr.wellFormed, Instr.len, List.length_replicate]; decide

theorem test_wellFormed_longest : (Instr.update (List.replicate (2 ^ 64 - 1) 0#8)).wellFormed = true := by
  simp only [Instr.wellFormed, Instr.len, List.length_replicate]; decide

/-! Decode: 30_encoding.md rule R61, each row's byte written out bit by bit; R65, R68. -/

theorem test_decode_init : decodeTableWord 8 0b00000000 = some .init := by decide
theorem test_decode_update : decodeTableWord 8 0b00000001 = some (.update []) := by decide
theorem test_decode_final : decodeTableWord 8 0b00000010 = some .final := by decide
theorem test_decode_sched : decodeTableWord 8 0b00001000 = some .sched := by decide
theorem test_decode_round : decodeTableWord 8 0b00001001 = some .round := by decide
theorem test_decode_compress : decodeTableWord 8 0b00001010 = some .compress := by decide
theorem test_decode_pad : decodeTableWord 8 0b00001011 = some .pad := by decide

theorem test_decode_update_operands :
    decode ⟨[0x01#8, 0x02#8], [3#64], abc ++ [0xff#8]⟩ = .command (.update abc) ⟨[0x02#8], [], [0xff#8]⟩ := by decide

theorem test_decode_nothing_else :
    (List.range 256).filter (fun w => (decodeTableWord 8 w).isSome) = [0, 1, 2, 8, 9, 10, 11] := by decide

theorem test_port_takes_three :
    (List.range 256).filter (fun w => decide (portDecode ⟨[BitVec.ofNat 8 w], [0#64], []⟩ ≠ .reserved (BitVec.ofNat 8 w)))
      = [0, 1, 2] := by decide

/-! Section 8, command decode and refusals: one step each. -/

theorem test_step_init_after_reset :
    after (step (State.reset.withFetchWord 8 0x00)) (fun t => (t.phase, t.h, t.bitCount)) = some (.active, IV, 0#64) := by
  decide

theorem test_step_update_after_reset :
    stop (step (State.reset.withFetchWord 8 0x01)) = some .updateOutsideLifecycle := by decide

theorem test_step_final_after_reset :
    stop (step (State.reset.withFetchWord 8 0x02)) = some .finalOutsideLifecycle := by decide

theorem test_step_label_at_port : stop (step (State.reset.withFetchWord 8 0x08)) = some .reservedCommand := by decide

theorem test_step_reserved_ff :
    stop (step (presented ⟨[0xff#8], [], []⟩ (active IV 0))) = some .reservedCommand := by decide

theorem test_update_length_checked_after_lifecycle :
    stop (exec (.update abc) { active IV (2 ^ 64 - 8) with phase := .finalized }) = some .updateOutsideLifecycle := by
  decide

/-! INIT (section 6, first rows; 10_state.md rule R26). -/

theorem test_init_iv :
    after (exec .init (active (Vector.replicate 8 0#32) 24)) (fun t => wordsNumber t.h.toList) =
      some 0x6A09E667BB67AE853C6EF372A54FF53A510E527F9B05688C1F83D9AB5BE0CD19 := by decide

/-- T6.10: "The byte `buf[0..2]` still holds" what the first message left there. -/
theorem test_init_keeps_buffer : after (exec .init (active IV 24)) (fun t => memRead t.buf 0 3) = some (letters 3) := by
  decide

/-! UPDATE (section 6). -/

/-- T6.6, second UPDATE: fill 60, five bytes. -/
theorem test_update_completes_block :
    after (exec (.update (bytes 60 65)) { active IV 480 with buf := Vector.ofFn fun j : Fin 64 => BitVec.ofNat 8 j.val })
      (fun t => (wordsNumber t.h.toList, t.bitCount.toNat, t.fill, memRead t.buf 0 1)) =
      some (0xFC99A2DF88F42A7A7BB9D18033CDC6A20256755F9D5B9A5044A9CC315ABE84A7, 520, 1, [0x40#8]) := by decide +kernel

/-- T6.11. -/
theorem test_update_bound :
    after (exec (.update [0#8]) (active IV (2 ^ 64 - 16))) (fun t => t.bitCount.toNat) = some (2 ^ 64 - 8) ∧
      stop (exec (.update [0#8]) (active IV (2 ^ 64 - 8))) = some .bitcountOverflow ∧
      after (exec (.update []) (active IV (2 ^ 64 - 8))) id = some (active IV (2 ^ 64 - 8)) := by decide

/-! FINAL (sections 3 and 5). -/

/-- Section 5, n = 55. Every buffer byte above the fill is `61` in this state, and does not enter. -/
theorem test_final_55 :
    after (exec .final (active IV 440)) (fun t => (number t.dout.toList, t.phase)) =
      some (0x9f4390f8d30c2dd92ec9f095b65e2b9ae9b0a925a5258e241c9f1e910f734318, .finalized) := by decide +kernel

/-- Section 5, n = 63. -/
theorem test_final_63 :
    after (exec .final (active IV 504)) (fun t => number t.dout.toList) =
      some 0x7d3e74a05d7db15bce4ad9ec0658ea98e3f06eeecf16b4c6fff2da457ddc2f34 := by decide +kernel

/-! SCHED (section 3, the "abc" block; section 4, the all-ones block). -/

theorem test_sched_abc :
    after (exec .sched (withBlock abcBlock State.reset)) (fun t =>
        (t.scratch.w[0], t.scratch.w[15], t.scratch.w[16], t.scratch.w[17], t.scratch.w[18], t.scratch.w[19], t.scratch.w[63])) =
      some (0x61626380#32, 0x00000018#32, 0x61626380#32, 0x000F0000#32, 0x7DA86405#32, 0x600003C6#32, 0x12B1EDEB#32) := by
  decide +kernel

theorem test_sched_bytes :
    after (exec .sched (withBlock (bytes 0 64) State.reset)) (fun t =>
        (t.scratch.w[16], t.scratch.w[17], t.scratch.w[63])) =
      some (0x2D84894C#32, 0xBA99985F#32, 0x24A97715#32) := by decide +kernel

/-! ROUND (section 3, rounds 0 and 63). -/

theorem test_round_0 :
    after (exec .round { State.reset with scratch :=
        { State.reset.scratch with
          w := Vector.replicate 64 0x61626380#32
          work := ⟨0x6A09E667#32, 0xBB67AE85#32, 0x3C6EF372#32, 0xA54FF53A#32, 0x510E527F#32, 0x9B05688C#32, 0x1F83D9AB#32, 0x5BE0CD19#32⟩ } })
      (fun t => t.scratch.work) =
      some ⟨0x5D6AEBCD#32, 0x6A09E667#32, 0xBB67AE85#32, 0x3C6EF372#32, 0xFA2A4622#32, 0x510E527F#32, 0x9B05688C#32, 0x1F83D9AB#32⟩ := by
  decide +kernel

theorem test_round_63 :
    after (exec .round { State.reset with scratch :=
        { State.reset.scratch with
          w := Vector.replicate 64 0x12B1EDEB#32
          round := 63
          work := ⟨0xD39A2165#32, 0x04D24D6C#32, 0xB85E2CE9#32, 0xB6AE8FFF#32, 0xFB121210#32, 0x948D25B6#32, 0x961F4894#32, 0xB21BAD3D#32⟩ } })
      (fun t => t.scratch.work) =
      some ⟨0x506E3058#32, 0xD39A2165#32, 0x04D24D6C#32, 0xB85E2CE9#32, 0x5EF50F24#32, 0xFB121210#32, 0x948D25B6#32, 0x961F4894#32⟩ := by
  decide +kernel

/-! COMPRESS (section 4, rows 4 and 5). -/

theorem test_compress_all_ones :
    after (exec .compress (withBlock (List.replicate 64 0xff#8) (active (Vector.replicate 8 0xFFFFFFFF#32) 0)))
        (fun t => wordsNumber t.h.toList) =
      some 0x0598127AAF11706E77401FFFD730C5490B84C867A98C6CA3D7F3C0F906A78B79 := by decide +kernel

theorem test_compress_bytes :
    after (exec .compress (withBlock (bytes 0 64) (active IV 0))) (fun t => wordsNumber t.h.toList) =
      some 0xFC99A2DF88F42A7A7BB9D18033CDC6A20256755F9D5B9A5044A9CC315ABE84A7 := by decide +kernel

/-! PAD (section 5, n = 56 and n = 0 by the State after FINAL's last COMPRESS). -/

theorem test_pad_56 :
    after (exec .pad (active IV 448)) (fun t => wordsNumber t.h.toList) =
      some 0xB35439A4AC6F0948B6D6F9E3C6AF0F5F590CE20F1BDE7090EF7970686EC6738A := by decide +kernel

theorem test_pad_0 :
    after (exec .pad (active IV 0)) (fun t => wordsNumber t.h.toList) =
      some 0xE3B0C44298FC1C149AFBF4C8996FB92427AE41E4649B934CA495991B7852B855 := by decide +kernel

/-! Function vectors (section 2). -/

theorem test_sigma_12345678 :
    (ssig0 0x12345678#32, ssig1 0x12345678#32, bsig0 0x12345678#32, bsig1 0x12345678#32) =
      (0xE7FCE6EE#32, 0xA1F78649#32, 0x66146474#32, 0x3561ABDA#32) := by decide

theorem test_sigma_high_bit :
    (ssig0 0x80000000#32, ssig1 0x80000000#32, bsig0 0x80000000#32, bsig1 0x80000000#32) =
      (0x11002000#32, 0x00205000#32, 0x20040200#32, 0x02100040#32) := by decide

theorem test_Ch_Maj_truth_table :
    (Ch 0x0F0F0F0F#32 0x00FF00FF#32 0x0000FFFF#32, Maj 0x0F0F0F0F#32 0x00FF00FF#32 0x0000FFFF#32) =
      (0x000FF0FF#32, 0x000F0FFF#32) := by decide

theorem test_byte_order :
    BE32 0x01#8 0x02#8 0x03#8 0x04#8 = 0x01020304#32 ∧ be32 0xBA7816BF#32 = [0xba#8, 0x78#8, 0x16#8, 0xbf#8] ∧
      be64 512#64 = [0x00#8, 0x00#8, 0x00#8, 0x00#8, 0x00#8, 0x00#8, 0x02#8, 0x00#8] := by decide

/-! The Façade (section 7). -/

/-- DOUBLEHASH "abc": the second pass hashes the three bytes `ba 78 16`. -/
theorem test_doubleHash_abc :
    after (hostDoubleHash abc State.reset) (fun t => (t.outcome.map fun d => number d.toList)) =
      some [0xba7816bf8f01cfea414140de5dae2223b00361a396177a9cb410ff61f20015ad,
            0x1fdd22a8bb94bd1ceb88700ac15d46b04f671a498ad2735db26179ceda7b9072] := by decide +kernel

/-! Witnesses: states and operands that meet the hypotheses of the obligations, at the values where clauses meet. -/

theorem witness_DecodeAfterEncodeGivesOperationBack :
    (Instr.update []).wellFormed = true ∧ (Instr.update abc).wellFormed = true ∧ Instr.pad.wellFormed = true := by decide

theorem witness_EncodeAfterDecodeGivesPortsBack :
    decode ⟨[0x01#8, 0x02#8], [2#64, 7#64], abc⟩ = .command (.update (abc.take 2)) ⟨[0x02#8], [7#64], [0x63#8]⟩ := by decide

theorem witness_PortRefusesExactlyReservedBytes :
    (presented ⟨[0x03#8], [], []⟩ State.reset).resetLine = .released ∧
      (presented ⟨[0x03#8], [], []⟩ State.reset).ports.cmd = 0x03#8 :: [] ∧
      stop (step (presented ⟨[0x03#8], [], []⟩ State.reset)) = some .reservedCommand ∧
      stop (step (presented ⟨[0x02#8], [], []⟩ State.reset)) ≠ some .reservedCommand := by decide

theorem witness_StepRunsDecodedCommand :
    (presented ⟨[0x01#8], [1#64], [0x61#8]⟩ (active IV 0)).resetLine = .released ∧
      isHostCommand (.update [0x61#8]) = true ∧
      decode (presented ⟨[0x01#8], [1#64], [0x61#8]⟩ (active IV 0)).ports = .command (.update [0x61#8]) Ports.empty := by
  decide

theorem witness_EngineIdlesWithoutCommand : State.reset.resetLine = .released ∧ State.reset.ports.cmd = [] := by decide

/-- The length operand missing. -/
theorem witness_IncompleteUpdateWaitsOrIsRefused_length :
    (presented ⟨[0x01#8, 0x02#8], [], abc⟩ (active IV 0)).resetLine = .released ∧
      (presented ⟨[0x01#8, 0x02#8], [], abc⟩ (active IV 0)).ports.cmd = 0x01#8 :: [0x02#8] ∧
      (presented ⟨[0x01#8, 0x02#8], [], abc⟩ (active IV 0)).ports.len = [] := by decide

/-- The three clauses at length 2 with one byte presented: outside ACTIVE; counter 2^64 - 16 (overflow); 2^64 - 24. -/
theorem witness_IncompleteUpdateWaitsOrIsRefused :
    let p : Ports := ⟨[0x01#8], [2#64], [0x61#8]⟩
    (presented p State.reset).resetLine = .released ∧ (presented p State.reset).ports.data.length < (2#64).toNat ∧
      State.reset.phase ≠ .active ∧
      (presented p (active IV (2 ^ 64 - 16))).phase = .active ∧
      2 ^ 64 ≤ (presented p (active IV (2 ^ 64 - 16))).bitCount.toNat + 8 * (2#64).toNat ∧
      (presented p (active IV (2 ^ 64 - 24))).bitCount.toNat + 8 * (2#64).toNat < 2 ^ 64 ∧
      stop (step (presented p (active IV (2 ^ 64 - 16)))) = some .bitcountOverflow ∧
      after (step (presented p (active IV (2 ^ 64 - 24)))) id = some (presented p (active IV (2 ^ 64 - 24))) := by decide

/-- Reset between commands, reset in a command, and reset while an UPDATE is not complete. -/
theorem witness_HardwareResetLeavesUninit :
    ResetLine.applied ≠ .released ∧ ResetLine.appliedInCommand ≠ .released ∧
      portDecode ⟨[0x02#8, 0x00#8], [], []⟩ = .command .final ⟨[0x00#8], [], []⟩ ∧
      portDecode ⟨[0x01#8], [2#64], [0x61#8]⟩ = .awaitData 2#64 ∧
      after (step { active IV 24 with resetLine := .appliedInCommand, ports := ⟨[0x01#8], [2#64], [0x61#8]⟩ })
        (fun t => (t.phase, t.ports)) = some (.uninit, ⟨[0x01#8], [2#64], [0x61#8]⟩) ∧
      after (step { active IV 24 with resetLine := .appliedInCommand, ports := ⟨[0x02#8, 0x00#8], [], []⟩ })
        (fun t => (t.phase, t.ports)) = some (.uninit, ⟨[0x00#8], [], []⟩) := by decide

theorem witness_InitLeavesBufferBytes : ∃ t, exec .init (active IV 24) = .next t := ⟨_, rfl⟩

/-- The three clauses: UNINIT; length 2^61 from counter 0 (refused) and 2^61 - 1 (accepted); one byte at the top. -/
theorem witness_UpdateCompletesExactlyWithinPreconditions :
    State.reset.phase ≠ .active ∧ (active IV 0).phase = .active ∧
      2 ^ 64 ≤ (active IV 0).bitCount.toNat + 8 * (List.replicate (2 ^ 61) 0#8).length ∧
      (active IV 0).bitCount.toNat + 8 * (List.replicate (2 ^ 61 - 1) 0#8).length < 2 ^ 64 ∧
      2 ^ 64 ≤ (active IV (2 ^ 64 - 8)).bitCount.toNat + 8 * [0#8].length ∧
      (active IV (2 ^ 64 - 16)).bitCount.toNat + 8 * [0#8].length < 2 ^ 64 := by
  simp only [List.length_replicate]; decide

theorem witness_EmptyUpdateChangesNothing :
    (active IV (2 ^ 64 - 8)).phase = .active ∧ State.reset.phase ≠ .active := by decide

/-- A carry out of bit 31: 2^32 - 8 bits and one byte. -/
theorem witness_UpdateCountsEightBitsAByte :
    (active IV (2 ^ 32 - 8)).phase = .active ∧ (active IV (2 ^ 32 - 8)).bitCount.toNat + 8 * [0#8].length < 2 ^ 64 ∧
      after (exec (.update [0#8]) (active IV (2 ^ 32 - 8))) (fun t => t.bitCount.toNat) = some (2 ^ 32) := by decide

/-- Fill 0 with 63 bytes, fill 62 with one. -/
theorem witness_UpdateBuffersShortInput :
    (active IV 0).phase = .active ∧ (active IV 0).fill + (letters 63).length < 64 ∧
      (active IV 496).fill + (letters 1).length < 64 ∧
      (active IV 496).bitCount.toNat + 8 * (letters 1).length < 2 ^ 64 := by decide

/-- Fill 63 with one byte, fill 0 with 64. -/
theorem witness_UpdateCompressesFullBlocksInOrder :
    (active IV 504).phase = .active ∧ 64 ≤ (active IV 504).fill + (letters 1).length ∧
      64 ≤ (active IV 0).fill + (letters 64).length ∧
      (active IV 504).bitCount.toNat + 8 * (letters 1).length < 2 ^ 64 := by decide

/-- Both clauses: 63 bytes in all, and 65 bytes in all with byte 1 of the buffer below the old fill. -/
theorem witness_UpdateFrame :
    (∃ t, exec (.update (letters 1)) (active IV 496) = .next t) ∧ (active IV 496).fill + (letters 1).length < 64 ∧
      (∃ t, exec (.update (letters 2)) (active IV 504) = .next t) ∧ 64 ≤ (active IV 504).fill + (letters 2).length ∧
      ((active IV 504).fill + (letters 2).length) % 64 ≤ 1 ∧ 1 < (active IV 504).fill :=
  ⟨⟨_, rfl⟩, by decide, ⟨_, rfl⟩, by decide, by decide, by decide⟩

/-- The Context that holds 55 times "a". -/
theorem witness_Holds : Holds (letters 55) (active IV 440) := ⟨by decide, by decide, by decide, by decide⟩

/-- The Context that holds 64 times "a": section 5, "State before FINAL" for n = 64. -/
theorem witness_Holds_block :
    Holds (letters 64) (active #v[0xDF5BB81C#32, 0xE81E0626#32, 0xFB45A894#32, 0x4FD40F31#32,
      0xB25E6816#32, 0xD6D499C1#32, 0xAB904929#32, 0x00635E66#32] 512) :=
  ⟨by decide, by decide, by decide +kernel, by decide⟩

theorem witness_UpdateExtendsHeldMessage :
    Holds (letters 55) (active IV 440) ∧ 8 * ((letters 55).length + (letters 9).length) < 2 ^ 64 :=
  ⟨witness_Holds, by decide⟩

/-- Section 6, T6.5: 1 + 63 + 1 bytes, here with an empty chunk. -/
theorem witness_StreamingEquivalence :
    (active IV 0).phase = .active ∧
      (active IV 0).bitCount.toNat + 8 * [bytes 0 1, bytes 1 64, [], bytes 64 65].flatten.length < 2 ^ 64 := by decide

/-- Two States and two bytes that differ, at the top of the counter. -/
theorem witness_UpdateRefusalIndependentOfData :
    (active IV (2 ^ 64 - 8)).phase = (active zeros (2 ^ 64 - 8)).phase ∧
      (active IV (2 ^ 64 - 8)).bitCount = (active zeros (2 ^ 64 - 8)).bitCount ∧ [0#8].length = [0xff#8].length ∧
      stop (exec (.update [0#8]) (active IV (2 ^ 64 - 8))) = some .bitcountOverflow := by decide

/-- Two machines with the same Block and different States. -/
theorem witness_SchedDependsOnBlockOnly :
    (active IV 24).scratch.blk = State.reset.scratch.blk ∧ active IV 24 ≠ State.reset := by decide

theorem witness_InternalOperationsFrame :
    isHostCommand .sched = false ∧ isHostCommand .round = false ∧ isHostCommand .compress = false ∧
      isHostCommand .pad = false := by decide

/-- Both sides of the ends of the shifts: bits 28 and 29 of ssig0, 21 and 22 of ssig1 (section 2, all-ones row). -/
theorem witness_SigmaFunctionsMixThreeBits :
    (ssig0 0xFFFFFFFF#32).getLsbD 28 = true ∧ (ssig0 0xFFFFFFFF#32).getLsbD 29 = false ∧
      (ssig1 0xFFFFFFFF#32).getLsbD 21 = true ∧ (ssig1 0xFFFFFFFF#32).getLsbD 22 = false ∧
      (bsig0 0xFFFFFFFF#32).getLsbD 31 = true ∧ (bsig1 0xFFFFFFFF#32).getLsbD 31 = true := by decide

/-- Bit 31 of a rotation by 1 and by 31, and of a shift by 0 and by 31. -/
theorem witness_RotateAndShiftMoveBits :
    (rotr 1#32 1).getLsbD 31 = true ∧ (rotr 0x40000000#32 31).getLsbD 31 = true ∧ (shr 0x80000000#32 0).getLsbD 31 = true ∧
      (shr 0x80000000#32 31).getLsbD 0 = true ∧ (shr 0x80000000#32 31).getLsbD 31 = false := by decide

/-- The bits of Ch and Maj at the ends of the word. -/
theorem witness_ChChoosesBitwise : (0 : Nat) < 32 ∧ (31 : Nat) < 32 ∧ (Ch 0x80000000#32 0x80000000#32 1#32).getLsbD 31 = true := by
  decide

theorem witness_MajIsBitwiseMajority : (0 : Nat) < 32 ∧ (31 : Nat) < 32 ∧ (Maj 0x80000000#32 0x80000000#32 1#32).getLsbD 31 = true := by
  decide

/-- The last two bytes of the buffer written; the byte before them, and none after them. -/
theorem witness_BufferReadAfterWrite :
    62 + [1#8, 2#8].length ≤ 64 ∧ 61 + 1 ≤ 62 ∧ memRead (memWrite (active IV 0).buf 62 [1#8, 2#8]) 61 3 = [0x61#8, 1#8, 2#8] := by
  decide

/-- Fill 55, the last of the one-block case: bytes 54 (buffered), 55 (`80`), none between, 56 on (length). And fill 0. -/
theorem witness_PadOneBlockCase : (active IV 440).fill = 55 ∧ (active IV 440).fill < 56 ∧ (active IV 512).fill = 0 := by decide

/-- Fill 56 and fill 63, the ends of the two-block case. -/
theorem witness_PadTwoBlockCase :
    (active IV 448).fill = 56 ∧ 56 ≤ (active IV 448).fill ∧ (active IV 504).fill = 63 ∧ 56 ≤ (active IV 504).fill := by decide

theorem witness_PadWritesOnlyH : ∃ t, exec .pad (active IV 440) = .next t := ⟨_, rfl⟩

theorem witness_FinalReturnsStateAfterPad : (active IV 440).phase = .active ∧ State.reset.phase ≠ .active := by decide

theorem witness_FinalFrame : ∃ t, exec .final (active IV 440) = .next t := ⟨_, rfl⟩

theorem witness_AfterFinalOnlyInitIsAccepted : ∃ t, exec .final (active IV 448) = .next t := ⟨_, rfl⟩

theorem witness_FinalDigestsHeldMessage : Holds (letters 55) (active IV 440) ∧ 8 * (letters 55).length < 2 ^ 64 :=
  ⟨witness_Holds, by decide⟩

/-- The same two buffered bytes, the rest of the buffer different. -/
theorem witness_StaleBytesNeverReachDigest :
    SameContext (active IV 16) { active IV 16 with buf := memWrite (active IV 16).buf 2 (letters 1 ++ abc) } ∧
      (∃ t, exec .final (active IV 16) = .next t) ∧
      (∃ t, exec .final { active IV 16 with buf := memWrite (active IV 16).buf 2 (letters 1 ++ abc) } = .next t) ∧
      (active IV 16).buf ≠ memWrite (active IV 16).buf 2 (letters 1 ++ abc) :=
  ⟨⟨rfl, rfl, rfl, by decide⟩, ⟨_, rfl⟩, ⟨_, rfl⟩, by decide⟩

/-- UPDATE at fill 63 with one byte (one Block), PAD at fills 55 and 56, a Context that holds a message, and messages on
both sides of 56 bytes. -/
theorem witness_CompressionCounts :
    (active IV 504).phase = .active ∧ (active IV 504).bitCount.toNat + 8 * (letters 1).length < 2 ^ 64 ∧
      ((active IV 504).fill + (letters 1).length) / 64 = 1 ∧ ((active IV 496).fill + (letters 1).length) / 64 = 0 ∧
      Holds (letters 55) (active IV 440) ∧ (active IV 440).fill = 55 ∧ (active IV 448).fill = 56 ∧
      8 * (letters 55).length < 2 ^ 64 ∧ (letters 55).length % 64 < 56 ∧ ¬ (letters 56).length % 64 < 56 :=
  ⟨by decide, by decide, by decide, by decide, witness_Holds, by decide, by decide, by decide, by decide, by decide⟩

theorem witness_StaleBytesNeverReachContext :
    SameContext (active IV 16) { active IV 16 with buf := memWrite (active IV 16).buf 2 abc } :=
  ⟨rfl, rfl, rfl, by decide⟩

/-- The longest message HASH takes has 2^61 - 1 bytes. -/
theorem witness_HashReturnsMessageDigest :
    State.reset.resetLine = .released ∧ abc.length < 2 ^ 61 ∧ (List.replicate (2 ^ 61 - 1) 0#8).length < 2 ^ 61 := by
  simp only [List.length_replicate]; decide

theorem witness_DoubleHashOf32BytesIsConventional : State.reset.resetLine = .released ∧ (letters 32).length = 32 := by decide

/-- The ends: no byte, and 31. -/
theorem witness_DoubleHashOfShortMessageHashesPrefix :
    State.reset.resetLine = .released ∧ (letters 0).length < 32 ∧ (letters 31).length < 32 := by decide

theorem witness_DoubleHashOfLongMessageOverreads :
    State.reset.resetLine = .released ∧ 32 < (letters 33).length ∧ (letters 33).length < 2 ^ 61 := by decide

/-- A state with the invariant and a step from it: FINAL of 55 times "a"; and a step that keeps ACTIVE. -/
theorem witness_StepKeepsContextInvariant :
    ContextInv (presented ⟨[0x02#8], [], []⟩ (active IV 440)) ∧
      (∃ t, step (presented ⟨[0x02#8], [], []⟩ (active IV 440)) = .next t) ∧
      (∃ t, step (presented ⟨[0x01#8], [1#64], [0x61#8]⟩ (active IV 440)) = .next t ∧ t.phase = .active) :=
  ⟨fun _ => ⟨letters 55, ⟨rfl, witness_Holds.count, witness_Holds.chained, witness_Holds.pending⟩⟩, ⟨_, rfl⟩, ⟨_, rfl, rfl⟩⟩

/-- A sequence that starts in mid-message, and one that starts after reset; both within the bound. -/
theorem witness_ConformingRunsReturnTheirDigests :
    (active IV 440).resetLine = .released ∧ Holds (letters 55) (active IV 440) ∧
      lifecycle .active [.update abc, .update [], .final, .init, .final] = true ∧
      withinBound (8 * (letters 55).length) [.update abc, .update [], .final, .init, .final] = true ∧
      State.reset.phase ≠ .active ∧ lifecycle State.reset.phase [.init, .init, .update abc, .final] = true ∧
      withinBound (8 * ([] : List Byte).length) [.init, .init, .update abc, .final] = true :=
  ⟨by decide, witness_Holds, by decide, by decide, by decide, by decide, by decide⟩

/-- Sequences that break the lifecycle (before INIT, after FINAL), one that keeps it, and the bound at its last bit. -/
theorem witness_LifecycleDecidesRefusal :
    lifecycle .uninit [.update []] = false ∧ lifecycle .active [.final, .update abc] = false ∧
      lifecycle .active [.final, .final] = false ∧ lifecycle .active [.update abc, .final, .init] = true ∧
      (∀ i ∈ [Instr.update abc, .final, .init], i.wellFormed = true) ∧
      withinBound (2 ^ 64 - 16) [.update [0#8], .final] = true ∧ withinBound (2 ^ 64 - 8) [.update [0#8], .final] = false := by
  decide

theorem witness_OnlyFinalReturnsData :
    after (step (presented ⟨[0x02#8], [], []⟩ (active IV 440))) (fun t => t.outcome.length) = some 1 ∧
      (presented ⟨[0x02#8], [], []⟩ (active IV 440)).outcome.length = 0 := by decide

/-- One step of each kind: reset, INIT, FINAL, and one that leaves the lifecycle alone. -/
theorem witness_OnlyResetInitFinalChangePhase :
    after (step { active IV 0 with resetLine := .applied }) (fun t => t.phase) = some .uninit ∧
      after (step (presented ⟨[0x00#8], [], []⟩ State.reset)) (fun t => t.phase) = some .active ∧
      after (step (presented ⟨[0x02#8], [], []⟩ (active IV 0))) (fun t => t.phase) = some .finalized ∧
      after (step State.reset) (fun t => t.phase) = some .uninit := by decide

/-- Where the two readings of R148 differ: FINAL after reset, the reserved byte `03`, an UPDATE without its data. -/
theorem witness_MisuseReadingNeverStops :
    stop (step (presented ⟨[0x02#8], [], []⟩ State.reset)) = some .finalOutsideLifecycle ∧
      portDecode (presented ⟨[0x02#8], [], []⟩ State.reset).ports = .command .final Ports.empty ∧
      portDecode ⟨[0x03#8, 0x00#8], [], []⟩ = .reserved 0x03#8 ∧
      portDecode ⟨[0x01#8], [2#64], [0x61#8]⟩ = .awaitData 2#64 ∧
      after (stepOrMisuse (presented ⟨[0x02#8], [], []⟩ State.reset)) (fun t => t.phase) = some .uninit := by decide

end Sys2Proof.Tests
end

section
/-!
PROOFS. INIT and the Context it leaves (R38, R120).
-/

namespace Sys2Proof.Machine

theorem fill_of_bitCount_zero {s : State} (h : s.bitCount = 0#64) : s.fill = 0 := by
  rw [State.fill, h, fillOf_zero]

/-- With the counter at 0 no buffer byte is read (R116), so `phase` and `H` are the whole Context. -/
theorem sameContext_of_bitCount_zero {s t : State} (hphase : s.phase = t.phase) (hh : s.h = t.h)
    (hs : s.bitCount = 0#64) (ht : t.bitCount = 0#64) : SameContext s t where
  phase := hphase
  h := hh
  bitCount := hs.trans ht.symm
  pending := by rw [fill_of_bitCount_zero hs, fill_of_bitCount_zero ht]; rfl

/-- INIT completes in every state, and only `H`, `bitCount` and `phase` are written. -/
theorem exec_init_eq (s : State) :
    exec .init s = .next { s with h := IV, bitCount := 0#64, phase := .active } :=
  (execInit_next_iff s _).mpr rfl

end Sys2Proof.Machine

open Sys2Proof Sys2Proof.Machine

/-- Settles O12: INIT pins `H`, `bitCount` and `phase`, and with the counter at 0 nothing else is in the Context. -/
theorem twoInitsAgree : Obligations.TwoInitsAgree := fun s s' =>
  ⟨_, _, exec_init_eq s, exec_init_eq s', rfl, rfl, rfl, rfl, fill_of_bitCount_zero rfl, fill_of_bitCount_zero rfl,
    rfl, rfl, sameContext_of_bitCount_zero rfl rfl rfl rfl⟩

end

section
/-!
PROOFS. Byte order: `BE32`, `be32` and `be64` (R40 to R42).
-/

namespace Sys2Proof.Machine

/-- One step of R40: the bytes read so far move up eight bits and the next byte fills the low ones. -/
theorem toNat_append_byte {n : Nat} (x : BitVec n) (b : Byte) : (x ++ b).toNat = x.toNat * 2 ^ 8 + b.toNat := by
  rw [BitVec.toNat_append, ← Nat.shiftLeft_add_eq_or_of_lt b.isLt, Nat.shiftLeft_eq]

theorem BE32_toNat (b0 b1 b2 b3 : Byte) :
    (BE32 b0 b1 b2 b3).toNat = b0.toNat * 2 ^ 24 + b1.toNat * 2 ^ 16 + b2.toNat * 2 ^ 8 + b3.toNat := by
  rw [BE32, toNat_append_byte, toNat_append_byte, toNat_append_byte]
  ring

/-- The bits of `x` from bit `k + 8` up, with the byte at bit `k` below them, are the bits from bit `k` up. -/
theorem extract_append_extractByte {n : Nat} (x : BitVec n) (k m : Nat) :
    x.extractLsb' (k + 8) m ++ x.extractLsb' k 8 = x.extractLsb' k (m + 8) :=
  BitVec.extractLsb'_append_extractLsb'_eq_extractLsb' rfl

theorem BE32_of_bytes (w : Word) :
    BE32 (w.extractLsb' 24 8) (w.extractLsb' 16 8) (w.extractLsb' 8 8) (w.extractLsb' 0 8) = w := by
  rw [BE32, extract_append_extractByte w 16, extract_append_extractByte w 8, extract_append_extractByte w 0]
  exact BitVec.extractLsb'_eq_self

/-- The byte at bit `k + 8` of `x ++ b` is the byte at bit `k` of `x`. -/
theorem extractByte_append_byte {n : Nat} (x : BitVec n) (b : Byte) (k : Nat) :
    (x ++ b).extractLsb' (k + 8) 8 = x.extractLsb' k 8 := by
  rw [BitVec.extractLsb'_append_eq_of_le (Nat.le_add_left 8 k), Nat.add_sub_cancel]

theorem be32_BE32 (b0 b1 b2 b3 : Byte) : be32 (BE32 b0 b1 b2 b3) = [b0, b1, b2, b3] := by
  have h0 : (BE32 b0 b1 b2 b3).extractLsb' 24 8 = b0 := by
    rw [BE32, extractByte_append_byte _ _ 16, extractByte_append_byte _ _ 8, BitVec.extractLsb'_append_eq_left]
  have h1 : (BE32 b0 b1 b2 b3).extractLsb' 16 8 = b1 := by
    rw [BE32, extractByte_append_byte _ _ 8, extractByte_append_byte _ _ 0, BitVec.extractLsb'_append_eq_right]
  have h2 : (BE32 b0 b1 b2 b3).extractLsb' 8 8 = b2 := by
    rw [BE32, extractByte_append_byte _ _ 0, BitVec.extractLsb'_append_eq_right]
  have h3 : (BE32 b0 b1 b2 b3).extractLsb' 0 8 = b3 := BitVec.extractLsb'_append_eq_right
  rw [be32, h0, h1, h2, h3]

/-- One step of reading a number most significant byte first: the byte at bit `k` extends the part above it. -/
theorem toNat_div_mul_add_byte {n : Nat} (x : BitVec n) (k : Nat) :
    x.toNat / 2 ^ (k + 8) * 256 + (x.extractLsb' k 8).toNat = x.toNat / 2 ^ k := by
  rw [BitVec.extractLsb'_toNat, Nat.shiftRight_eq_div_pow, Nat.pow_add, ← Nat.div_div_eq_div_mul]
  exact Nat.div_add_mod' _ _

/-- After `k` bytes of `be64(n)` the number read is the top `8k` bits of `n`. -/
theorem foldl_take_be64 (n : Count) (k : Nat) (hk : k ≤ 8) :
    ((be64 n).take k).foldl (fun acc b => acc * 256 + b.toNat) 0 = n.toNat / 2 ^ (64 - 8 * k) := by
  induction k with
  | zero => exact (Nat.div_eq_of_lt n.isLt).symm
  | succ k ih =>
    have hlt : k < (be64 n).length := hk
    have hbits : 64 - 8 * k = 56 - 8 * k + 8 := by omega
    have hnext : 64 - 8 * (k + 1) = 56 - 8 * k := by omega
    rw [List.take_succ_eq_append_getElem hlt, List.foldl_append, ih (by omega), List.foldl_cons, List.foldl_nil,
      be64_getElem, hbits, hnext, toNat_div_mul_add_byte]

end Sys2Proof.Machine

open Sys2Proof Sys2Proof.Machine

/-- Settles O32: the bytes of a word are adjacent, and appending four bytes puts each at its own place. -/
theorem wordBytesRoundTrip : Obligations.WordBytesRoundTrip :=
  ⟨fun _ => rfl, BE32_of_bytes, be32_BE32⟩

/-- Settles O33, by one append per byte. -/
theorem wordOfBytesIsBigEndianNumber : Obligations.WordOfBytesIsBigEndianNumber := BE32_toNat

/-- Settles O34: the prefix lemma at all eight bytes. -/
theorem lengthBytesAreBigEndianNumber : Obligations.LengthBytesAreBigEndianNumber := fun n =>
  ⟨be64_length n, (foldl_take_be64 n 8 le_rfl).trans (Nat.div_one _)⟩

end

section
/-!
PROOFS. The command port refuses exactly the reserved bytes (R65, R68).
-/

namespace Sys2Proof

/-- The port calls a byte reserved when the code space has no row for it, or the row of an internal operation (R64). -/
theorem portDecode_reserved_iff (p : Ports) (cmd : Byte) :
    portDecode p = .reserved cmd ↔
      decode p = .reserved cmd ∨ ∃ i rest, decode p = .command i rest ∧ isHostCommand i = false ∧ opcode i = cmd := by
  unfold portDecode
  split
  case h_1 i rest h =>
    rw [h]
    cases hi : isHostCommand i <;> simp [hi]
  all_goals rename_i h; simp [h]

/-- UPDATE's operands may be missing, but its byte is never reserved. -/
theorem decodeUpdate_cases (cs : List Byte) (l : List Count) (d : List Byte) :
    decodeUpdate cs l d = .awaitLen ∨ (∃ len, decodeUpdate cs l d = .awaitData len) ∨
      ∃ data rest, decodeUpdate cs l d = .command (.update data) rest := by
  cases l with
  | nil => exact .inl (decodeUpdate_nil cs d)
  | cons len l =>
    rcases Nat.lt_or_ge d.length len.toNat with h | h
    · exact .inr (.inl ⟨len, decodeUpdate_short cs l d len h⟩)
    · exact .inr (.inr ⟨_, _, decodeUpdate_whole cs l d len h⟩)

section

variable (cs : List Byte) (l : List Count) (d : List Byte)

/-- The bytes of the three host commands are not reserved, whatever stands on the operand ports. -/
theorem portDecode_hostByte_ne_reserved (cmd c : Byte) (h : cmd = 0x00#8 ∨ cmd = 0x01#8 ∨ cmd = 0x02#8) :
    portDecode ⟨cmd :: cs, l, d⟩ ≠ .reserved c := by
  rw [Ne, portDecode_reserved_iff]
  rcases h with rfl | rfl | rfl
  · simp [isHostCommand]
  · rw [decode_update]
    obtain h | ⟨len, h⟩ | ⟨data, rest, h⟩ := decodeUpdate_cases cs l d <;> simp [h, isHostCommand]
  · simp [isHostCommand]

/-- Every other byte is reserved at the port: the four internal labels (R64) and the bytes without a row (R65). -/
theorem portDecode_otherByte (cmd : Byte) (h : cmd ≠ 0x00#8 ∧ cmd ≠ 0x01#8 ∧ cmd ≠ 0x02#8) :
    portDecode ⟨cmd :: cs, l, d⟩ = .reserved cmd := by
  rw [portDecode_reserved_iff]
  by_cases hint : cmd ∈ [0x08#8, 0x09#8, 0x0A#8, 0x0B#8]
  · right
    obtain rfl | rfl | rfl | rfl : cmd = 0x08#8 ∨ cmd = 0x09#8 ∨ cmd = 0x0A#8 ∨ cmd = 0x0B#8 := by simpa using hint
    · exact ⟨_, _, decode_sched cs l d, rfl, rfl⟩
    · exact ⟨_, _, decode_round cs l d, rfl, rfl⟩
    · exact ⟨_, _, decode_compress cs l d, rfl, rfl⟩
    · exact ⟨_, _, decode_pad cs l d, rfl, rfl⟩
  · left
    obtain ⟨h0, h1, h2⟩ := h
    exact decode_reserved cmd cs l d (by simpa [h0, h1, h2] using hint)

end

end Sys2Proof

namespace Sys2Proof.Machine

/-- An UPDATE that waits for its data is refused for its preconditions only. -/
theorem awaitData_ne_reservedCommand (len : Count) (s : State) : awaitData len s ≠ .refused .reservedCommand := by
  unfold awaitData
  split
  · rcases updateRefusal_name _ _ _ ‹_› with rfl | rfl <;> simp
  · simp

/-- A whole command is refused by its own preconditions, never as reserved. -/
theorem runCommand_ne_reservedCommand (i : Instr) (rest : Ports) (s : State) :
    runCommand i rest s ≠ .refused .reservedCommand := fun h => by
  have hexec := exec_refusal_name i _ _ ((endCommand_refused_iff _ _).mp h)
  simp at hexec

/-- `reserved_command` is the answer to a byte the port decodes as reserved, and to nothing else. -/
theorem stepPort_reservedCommand_iff (s : State) :
    stepPort s = .refused .reservedCommand ↔ ∃ c, portDecode s.ports = .reserved c := by
  unfold stepPort
  cases hd : portDecode s.ports with
  | idle => simp
  | reserved c => simp
  | awaitLen => simp
  | awaitData len => simp [awaitData_ne_reservedCommand]
  | command i rest => simp [runCommand_ne_reservedCommand]

end Sys2Proof.Machine

open Sys2Proof Sys2Proof.Machine

/-- Settles O3: the refusal `reserved_command` comes from the port's decoder alone, which gives it to every byte but
those of the three host commands. -/
theorem portRefusesExactlyReservedBytes : Obligations.PortRefusesExactlyReservedBytes := by
  intro s cmd cmds hr hcmd
  have hports : s.ports = ⟨cmd :: cmds, s.ports.len, s.ports.data⟩ := by rw [← hcmd]
  rw [step_released s hr, stepPort_reservedCommand_iff, hports]
  constructor
  · rintro ⟨c, hc⟩
    have hnot : ¬ (cmd = 0x00#8 ∨ cmd = 0x01#8 ∨ cmd = 0x02#8) := fun hhost =>
      portDecode_hostByte_ne_reserved _ _ _ cmd c hhost hc
    simpa only [not_or] using hnot
  · exact fun h => ⟨cmd, portDecode_otherByte _ _ _ cmd h⟩

end

section
/-!
PROOFS. The rotations and shifts of the sigma functions, bit by bit (R15, R81, R82, R92, R93).
-/

namespace Sys2Proof.Machine

/-- A rotation by fewer than 32 places is the library's `BitVec.rotateRight`. -/
theorem rotr_eq_rotateRight (x : Word) {n : Nat} (hn : n < 32) : rotr x n = x.rotateRight n :=
  (BitVec.rotateRight_eq_rotateRightAux_of_lt hn).symm

/-- The low `32 - n` bits come from `n` places above; the top `n` bits wrap around. -/
theorem rotr_getLsbD (x : Word) {n i : Nat} (hn : n < 32) (hi : i < 32) :
    (rotr x n).getLsbD i = x.getLsbD ((i + n) % 32) := by
  rw [rotr_eq_rotateRight x hn, BitVec.getLsbD_rotateRight_of_lt hn]
  by_cases hlow : i < 32 - n
  · have hbit : (i + n) % 32 = n + i := by omega
    rw [hbit, decide_eq_true hlow, cond_true]
  · have hbit : (i + n) % 32 = i - (32 - n) := by omega
    rw [hbit, decide_eq_false hlow, cond_false, decide_eq_true hi, Bool.true_and]

theorem shr_getLsbD (x : Word) (n i : Nat) :
    (shr x n).getLsbD i = (decide (i < 32 - n) && x.getLsbD (i + n)) := by
  rw [shr, BitVec.getLsbD_ushiftRight, Nat.add_comm n i]
  by_cases hlow : i < 32 - n
  · rw [decide_eq_true hlow, Bool.true_and]
  · rw [decide_eq_false hlow, Bool.false_and, BitVec.getLsbD_of_ge x (i + n) (by omega)]

section

variable (x : Word) {m n i : Nat} (hm : m < 32) (hn : n < 32) (hi : i < 32)
include hm hn hi

/-- The shape of `ssig0` and `ssig1`. -/
theorem rotr_xor_rotr_xor_shr_getLsbD (k : Nat) :
    (rotr x m ^^^ rotr x n ^^^ shr x k).getLsbD i =
      (x.getLsbD ((i + m) % 32) ^^ x.getLsbD ((i + n) % 32) ^^ (decide (i < 32 - k) && x.getLsbD (i + k))) := by
  rw [BitVec.getLsbD_xor, BitVec.getLsbD_xor, rotr_getLsbD x hm hi, rotr_getLsbD x hn hi, shr_getLsbD]

/-- The shape of `bsig0` and `bsig1`. -/
theorem rotr_xor_rotr_xor_rotr_getLsbD {k : Nat} (hk : k < 32) :
    (rotr x m ^^^ rotr x n ^^^ rotr x k).getLsbD i =
      (x.getLsbD ((i + m) % 32) ^^ x.getLsbD ((i + n) % 32) ^^ x.getLsbD ((i + k) % 32)) := by
  rw [BitVec.getLsbD_xor, BitVec.getLsbD_xor, rotr_getLsbD x hm hi, rotr_getLsbD x hn hi, rotr_getLsbD x hk hi]

end

end Sys2Proof.Machine

open Sys2Proof Sys2Proof.Machine

/-- Settles O29: each function is one of the two shapes, at its own three amounts. -/
theorem sigmaFunctionsMixThreeBits : Obligations.SigmaFunctionsMixThreeBits := fun x i hi =>
  ⟨rotr_xor_rotr_xor_shr_getLsbD x (m := 7) (n := 18) (by decide) (by decide) hi 3,
   rotr_xor_rotr_xor_shr_getLsbD x (m := 17) (n := 19) (by decide) (by decide) hi 10,
   rotr_xor_rotr_xor_rotr_getLsbD x (m := 2) (n := 13) (k := 22) (by decide) (by decide) hi (by decide),
   rotr_xor_rotr_xor_rotr_getLsbD x (m := 6) (n := 11) (k := 25) (by decide) (by decide) hi (by decide)⟩

end

section
/-!
PROOFS. SCHED expands the Block, and depends on nothing else (R83 to R85).
-/

namespace Sys2Proof.Machine

/-- SCHED completes in every state, and only the Schedule is written. -/
theorem exec_sched_eq (s : State) :
    exec .sched s = .next { s with scratch := { s.scratch with w := schedule s.scratch.blk } } := rfl

/-- Word `i` of the Schedule is the next word after the `i` words before it. -/
theorem schedule_getElem_eq_nextScheduleWord (blk : Block) (i : Nat) (hi : i < 64) :
    (schedule blk)[i] = nextScheduleWord blk (scheduleWords blk i) i := by
  rw [schedule_getElem blk i hi, scheduleWords_last blk 64 i hi]

/-- The words the recurrence looks back at are words of the Schedule. -/
theorem scheduleWords_getD_eq_schedule (blk : Block) (n j : Nat) (hj : j < n) (hn : n ≤ 64) :
    (scheduleWords blk n).getD j 0 = (schedule blk)[j] := by
  rw [schedule_getElem blk j (by omega), scheduleWords_getD blk n 64 j hj hn]

/-- The first 16 words are the words of the Block (R83). -/
theorem schedule_getElem_of_lt_16 (blk : Block) (j : Fin 16) : (schedule blk)[j.val] = blockWord blk j := by
  rw [schedule_getElem_eq_nextScheduleWord, nextScheduleWord, dif_pos j.isLt]

/-- The recurrence of R84 from word 16 on. -/
theorem schedule_recurrence (blk : Block) (i : Nat) (hi : i < 64) (h16 : 16 ≤ i) :
    (schedule blk)[i] =
      ssig1 (schedule blk)[i - 2] + (schedule blk)[i - 7] + ssig0 (schedule blk)[i - 15] + (schedule blk)[i - 16] := by
  have hback (k : Nat) (hk : 0 < k) : (scheduleWords blk i).getD (i - k) 0 = (schedule blk)[i - k] :=
    scheduleWords_getD_eq_schedule blk i (i - k) (by omega) hi.le
  rw [schedule_getElem_eq_nextScheduleWord, nextScheduleWord, dif_neg (Nat.not_lt.mpr h16), hback 2 (by decide),
    hback 7 (by decide), hback 15 (by decide), hback 16 (by decide)]

end Sys2Proof.Machine

open Sys2Proof Sys2Proof.Machine

/-- Settles O22: the word list grows by `nextScheduleWord`, whose two cases are the two clauses. -/
theorem schedExpandsBlock : Obligations.SchedExpandsBlock := fun s =>
  ⟨_, exec_sched_eq s, rfl, schedule_getElem_of_lt_16 s.scratch.blk,
    fun i => schedule_recurrence s.scratch.blk i.val i.isLt⟩

/-- Settles O23: SCHED writes `schedule` of the Block, a function of the Block alone. -/
theorem schedDependsOnBlockOnly : Obligations.SchedDependsOnBlockOnly := fun s s' hblk =>
  ⟨_, _, exec_sched_eq s, exec_sched_eq s', congrArg schedule hblk⟩

end

section
/-!
PROOFS. The choice and majority functions, ROUND, and COMPRESS as a run of ROUNDs (R90, R91, R94 to R98).
-/

namespace Sys2Proof.Machine

theorem Ch_getLsbD (x y z : Word) {i : Nat} (hi : i < 32) :
    (Ch x y z).getLsbD i = ((x.getLsbD i && y.getLsbD i) ^^ (!x.getLsbD i && z.getLsbD i)) := by
  rw [Ch, BitVec.getLsbD_xor, BitVec.getLsbD_and, BitVec.getLsbD_and, BitVec.getLsbD_not, decide_eq_true hi,
    Bool.true_and]

theorem Maj_getLsbD (x y z : Word) (i : Nat) :
    (Maj x y z).getLsbD i =
      (x.getLsbD i && y.getLsbD i || x.getLsbD i && z.getLsbD i || y.getLsbD i && z.getLsbD i) := by
  rw [Maj, BitVec.getLsbD_or, BitVec.getLsbD_or, BitVec.getLsbD_and, BitVec.getLsbD_and, BitVec.getLsbD_and]

/-- The disjunction of the three pairs is the majority of three bits. -/
theorem pairwise_and_iff_two_le (a b c : Bool) :
    (a && b || a && c || b && c) = true ↔ 2 ≤ a.toNat + b.toNat + c.toNat := by
  revert a b c
  decide

theorem Maj_swap_left (x y z : Word) : Maj x y z = Maj y x z := by
  rw [Maj, Maj, BitVec.and_comm y x, BitVec.or_assoc, BitVec.or_comm (x &&& z), ← BitVec.or_assoc]

theorem Maj_swap_right (x y z : Word) : Maj x y z = Maj x z y := by
  rw [Maj, Maj, BitVec.and_comm z y, BitVec.or_comm (x &&& z)]

/-- ROUND completes in every state, and only the working variables are written. -/
theorem exec_round_eq (s : State) :
    exec .round s = .next { s with scratch := { s.scratch with
      work := roundStep s.scratch.w s.scratch.round s.scratch.work } } := rfl

/-- COMPRESS completes in every state. -/
theorem exec_compress_eq (s : State) : exec .compress s = .next (compressBlock s.scratch.blk s) := rfl

/-- The state in which COMPRESS begins its rounds: SCHED has run and `a..h` are loaded from `H` (R98). -/
def beforeRounds (s : State) : State :=
  { s with scratch := { s.scratch with w := schedule s.scratch.blk, work := Working.ofH s.h } }

/-- The state ROUND leaves when it is given the round index `i`. -/
def roundAt (i : Fin 64) (s : State) : State :=
  { s with scratch := { s.scratch with round := i, work := roundStep s.scratch.w i s.scratch.work } }

theorem exec_round_at (i : Fin 64) (s : State) :
    exec .round { s with scratch := { s.scratch with round := i } } = .next (roundAt i s) :=
  exec_round_eq _

/-- The state after the first `n` ROUNDs from `s`, their indices in ascending order. -/
def afterRounds (s : State) : Nat → State
  | 0 => s
  | n + 1 => roundAt (Fin.ofNat 64 n) (afterRounds s n)

/-- The ROUNDs keep the Schedule. -/
theorem afterRounds_w (s : State) (n : Nat) : (afterRounds s n).scratch.w = s.scratch.w := by
  induction n with
  | zero => rfl
  | succ n ih => exact ih

/-- The working variables after `n` ROUNDs of the machine are those of `rounds`. -/
theorem afterRounds_work (s : State) (n : Nat) :
    (afterRounds s n).scratch.work = rounds s.scratch.w n s.scratch.work := by
  induction n with
  | zero => rfl
  | succ n ih => rw [afterRounds, roundAt, rounds, afterRounds_w, ih]

/-- One more ROUND goes from the state after `i` of them to the state after `i + 1`. -/
theorem exec_round_afterRounds (s : State) (i : Fin 64) :
    exec .round { afterRounds s i with scratch := { (afterRounds s i).scratch with round := i } } =
      .next (afterRounds s (i + 1)) := by
  rw [exec_round_at, afterRounds, Fin.ofNat_val_eq_self]

/-- `compressH` adds to `H` the working variables that the 64 ROUNDs of the machine leave. -/
theorem compressH_eq_feedForward_afterRounds (s : State) :
    compressH s.h s.scratch.blk = feedForward s.h (afterRounds (beforeRounds s) 64).scratch.work := by
  rw [afterRounds_work]
  rfl

end Sys2Proof.Machine

open Sys2Proof Sys2Proof.Machine

/-- Settles O27: of the two terms of `Ch`, the bit of `x` leaves one. -/
theorem chChoosesBitwise : Obligations.ChChoosesBitwise := by
  intro x y z i hi
  rw [Ch_getLsbD x y z hi]
  cases x.getLsbD i <;> simp

/-- Settles O28, by the truth table of the three bits and the commutativity of `∧` and `∨`. -/
theorem majIsBitwiseMajority : Obligations.MajIsBitwiseMajority := fun x y z i _ =>
  ⟨by rw [Maj_getLsbD, pairwise_and_iff_two_le], Maj_swap_left x y z, Maj_swap_right x y z⟩

/-- Settles O24: `roundStep` takes every operand from the working variables before the round. -/
theorem roundAssignsSimultaneously : Obligations.RoundAssignsSimultaneously := exec_round_eq

/-- Settles O25: SCHED, loading and the 64 ROUNDs of the machine run the same rounds as `compressH`. -/
theorem compressIsSchedThenRoundsThenFeedForward : Obligations.CompressIsSchedThenRoundsThenFeedForward := fun s =>
  ⟨_, afterRounds (beforeRounds s), compressBlock s.scratch.blk s, exec_sched_eq s, rfl,
    exec_round_afterRounds (beforeRounds s), exec_compress_eq s, compressBlock_h _ s,
    compressH_eq_feedForward_afterRounds s, rfl⟩

end

section
/-!
PROOFS. PAD in its two cases and FINAL (R106 to R109, R112, R113, R115).
-/

namespace Sys2Proof.Machine

section

variable (buf : Memory) (r j : Nat) (hj : j < 64)

theorem padHead_of_lt (h : j < r) : (padHead buf r)[j] = buf[j] := by
  rw [padHead_getElem, if_pos h]

theorem padHead_of_eq (h : j = r) : (padHead buf r)[j] = padByte := by
  rw [padHead_getElem, if_neg h.not_lt, if_pos h]

theorem padHead_of_gt (h : r < j) : (padHead buf r)[j] = 0#8 := by
  rw [padHead_getElem, if_neg h.not_gt, if_neg h.ne']

end

theorem zeroBlock_getElem (j : Nat) (hj : j < 64) : zeroBlock[j] = 0#8 := Vector.getElem_replicate hj

/-- The `H` that PAD leaves is one compression where the padding fits (R106, R109). -/
theorem padContext_h_of_fill_lt (s : State) (h : s.fill < 56) :
    (padContext s).h = compressH s.h (setLength (padHead s.buf s.fill) s.bitCount) := by
  rw [padContext_h, padBlocks_one _ _ h]
  rfl

/-- The `H` that PAD leaves is two compressions in order where the padding does not fit (R107, R109). -/
theorem padContext_h_of_le_fill (s : State) (h : 56 ≤ s.fill) :
    (padContext s).h = compressH (compressH s.h (padHead s.buf s.fill)) (setLength zeroBlock s.bitCount) := by
  rw [padContext_h, padBlocks_two _ _ h]
  rfl

/-- PAD completes in every state. -/
theorem exec_pad_eq (s : State) : exec .pad s = .next (padContext s) := rfl

theorem exec_final_of_active (s : State) (h : s.phase = .active) : exec .final s = .next (finalContext s) :=
  (execFinal_next_iff s _).mpr ⟨h, rfl⟩

theorem exec_final_outside (s : State) (h : s.phase ≠ .active) : exec .final s = .refused .finalOutsideLifecycle :=
  (execFinal_refused_iff s _).mpr ⟨h, rfl⟩

theorem exec_update_outside (data : List Byte) (s : State) (h : s.phase ≠ .active) :
    exec (.update data) s = .refused .updateOutsideLifecycle :=
  (execUpdate_refused_iff data s _).mpr (updateRefusal_outside _ s h)

/-- Byte `k` of `be32(w)`, most significant first (R41). -/
theorem be32_getD (w : Word) (k : Fin 4) : (be32 w).getD k.val 0#8 = w.extractLsb' (24 - 8 * k.val) 8 := by
  fin_cases k <;> rfl

/-- Byte `4j + k` of the Digest is byte `k` of `be32(H[j])` (R113). -/
theorem digestOf_getElem (h : HashState) (j : Fin 8) (k : Fin 4) :
    (digestOf h)[4 * j.val + k.val] = h[j].extractLsb' (24 - 8 * k.val) 8 := by
  have hword : (4 * j.val + k.val) / 4 = j.val := by omega
  have hbyte : (4 * j.val + k.val) % 4 = k.val := by omega
  simp only [digestOf, Vector.getElem_ofFn, hword, hbyte]
  exact be32_getD h[j] k

end Sys2Proof.Machine

open Sys2Proof Sys2Proof.Machine

/-- Settles O36: the Block is `padHead` with the length field at offset 56, and below 56 it is `padHead`. -/
theorem padOneBlockCase : Obligations.PadOneBlockCase := by
  intro s hfit
  have hlow (j : Nat) (hj : j < 56) :
      (setLength (padHead s.buf s.fill) s.bitCount)[j] = (padHead s.buf s.fill)[j] := setLength_low _ _ j hj
  refine ⟨_, _, exec_pad_eq s, padContext_h_of_fill_lt s hfit, padContext_bitCount s, ?buffered, ?marker, ?zeros,
    fun k => setLength_high _ _ k.val k.isLt⟩
  case buffered => exact fun j h => (hlow j (h.trans hfit)).trans (padHead_of_lt _ _ _ j.isLt h)
  case marker => exact fun j h => (hlow j (h.trans_lt hfit)).trans (padHead_of_eq _ _ _ j.isLt h)
  case zeros => exact fun j h h56 => (hlow j h56).trans (padHead_of_gt _ _ _ j.isLt h)

/-- Settles O37: the first Block is `padHead`, the second is the zero Block with the length field. -/
theorem padTwoBlockCase : Obligations.PadTwoBlockCase := fun s hfull =>
  ⟨_, _, _, exec_pad_eq s, padContext_h_of_le_fill s hfull, padContext_bitCount s,
    fun j => padHead_of_lt _ _ _ j.isLt, fun j => padHead_of_eq _ _ _ j.isLt, fun j => padHead_of_gt _ _ _ j.isLt,
    fun j h => (setLength_low _ _ j.val h).trans (zeroBlock_getElem j.val j.isLt),
    fun k => setLength_high _ _ k.val k.isLt⟩

/-- Settles O39: FINAL hands over the Digest of the `H` PAD leaves, whose bytes are those of `be32`. -/
theorem finalReturnsStateAfterPad : Obligations.FinalReturnsStateAfterPad := by
  intro s
  refine ⟨exec_final_outside s, fun hactive =>
    ⟨padContext s, finalContext s, exec_pad_eq s, exec_final_of_active s hactive, ?digest, finalContext_phase s, ?record⟩⟩
  case digest =>
    intro j k
    rw [← digestOf_getElem]
    exact congrArg (fun d : Digest => d[4 * j.val + k.val]) (finalContext_dout s)
  case record => rw [finalContext_outcome, finalContext_dout, padContext_outcome]

/-- Settles O41: what FINAL leaves is FINALIZED, which is not ACTIVE; INIT has no precondition. -/
theorem afterFinalOnlyInitIsAccepted : Obligations.AfterFinalOnlyInitIsAccepted := by
  refine ⟨fun s t hfinal => ?finalized, fun t hphase => ?refused, fun t => ⟨_, exec_init_eq t⟩⟩
  case finalized =>
    obtain ⟨-, rfl⟩ := (execFinal_next_iff s t).mp hfinal
    exact finalContext_phase s
  case refused =>
    have houtside : t.phase ≠ .active := by rw [hphase]; decide
    exact ⟨fun data => exec_update_outside data t houtside, exec_final_outside t houtside⟩

end

section
/-!
PROOFS. INIT and UPDATE in full: the initial Context, the preconditions, the empty and the compressing UPDATE (R120, R122,
R123, R128).
-/

namespace Sys2Proof.Machine

theorem exec_update_overflow (data : List Byte) (s : State) (hactive : s.phase = .active)
    (hover : 2 ^ 64 ≤ s.bitCount.toNat + 8 * data.length) : exec (.update data) s = .refused .bitcountOverflow :=
  (execUpdate_refused_iff data s _).mpr (updateRefusal_overflow _ s hactive hover)

theorem exec_update_within (data : List Byte) (s : State) (hactive : s.phase = .active)
    (hbound : s.bitCount.toNat + 8 * data.length < 2 ^ 64) : exec (.update data) s = .next (absorb data s) :=
  (execUpdate_next_iff data s _).mpr ⟨hactive, hbound, rfl⟩

@[simp] theorem absorb_nil (s : State) : absorb [] s = s := if_pos List.length_nil

end Sys2Proof.Machine

open Sys2Proof Sys2Proof.Machine

/-- Settles O13: each of the three outcomes is one branch of UPDATE's preconditions (R150). -/
theorem updateCompletesExactlyWithinPreconditions : Obligations.UpdateCompletesExactlyWithinPreconditions :=
  fun data s => ⟨exec_update_outside data s, exec_update_overflow data s,
    fun hactive hbound => ⟨_, exec_update_within data s hactive hbound⟩⟩

/-- Settles O17: within the bound UPDATE answers `absorb`, whose `H` and buffered bytes the laws give for every fill and
length, so also where a Block is full. -/
theorem updateCompressesFullBlocksInOrder : Obligations.UpdateCompressesFullBlocksInOrder :=
  fun data s hactive hbound _ =>
    ⟨absorb data s, exec_update_within data s hactive hbound, absorb_h data s, absorb_pending data s,
      absorb_bitCount data s, absorb_phase data s⟩

/-- Settles O10: INIT writes constants to `H`, `bitCount` and `phase` and nothing else, so a second INIT finds them there. -/
theorem initWritesInitialContext : Obligations.InitWritesInitialContext := fun s =>
  ⟨_, exec_init_eq s, rfl, rfl, rfl, fill_of_bitCount_zero rfl, ⟨rfl, rfl, rfl, rfl, rfl⟩, rfl, exec_init_eq _⟩

/-- Settles O14: with no byte the length bound is the width of the counter, and nothing is absorbed. -/
theorem emptyUpdateChangesNothing : Obligations.EmptyUpdateChangesNothing := by
  refine fun s => ⟨fun hactive => ?active, exec_update_outside [] s⟩
  have hbound : s.bitCount.toNat + 8 * ([] : List Byte).length < 2 ^ 64 := s.bitCount.isLt
  rw [exec_update_within [] s hactive hbound, absorb_nil]

end

section
/-!
PROOFS. The decoder reads exactly what the encoder writes (R60 to R67).
-/

namespace Sys2Proof

/-- UPDATE reads back the operands the encoder wrote, whatever stands behind them (R67). -/
theorem decodeUpdate_append (data : List Byte) (rest : Ports) (hlen : data.length < 2 ^ 64) :
    decodeUpdate rest.cmd (BitVec.ofNat 64 data.length :: rest.len) (data ++ rest.data) =
      .command (.update data) rest := by
  have hcount : (BitVec.ofNat 64 data.length).toNat = data.length := by
    rw [BitVec.toNat_ofNat, Nat.mod_eq_of_lt hlen]
  rw [decodeUpdate_whole, hcount, List.take_left, List.drop_left]
  rw [hcount, List.length_append]
  exact Nat.le_add_right _ _

theorem decode_encode_append (i : Instr) (rest : Ports) (hwf : i.wellFormed = true) :
    decode ((encode i).append rest) = .command i rest := by
  cases i with
  | init => exact decode_init rest.cmd rest.len rest.data
  | update data =>
    have hlen : data.length < 2 ^ 64 := of_decide_eq_true hwf
    exact (decode_update _ _ _).trans (decodeUpdate_append data rest hlen)
  | final => exact decode_final rest.cmd rest.len rest.data
  | sched => exact decode_sched rest.cmd rest.len rest.data
  | round => exact decode_round rest.cmd rest.len rest.data
  | compress => exact decode_compress rest.cmd rest.len rest.data
  | pad => exact decode_pad rest.cmd rest.len rest.data

/-- What an UPDATE was decoded from: its length, and that many bytes of data. -/
theorem decodeUpdate_command {cs : List Byte} {lens : List Count} {d : List Byte} {i : Instr} {rest : Ports}
    (h : decodeUpdate cs lens d = .command i rest) :
    i.wellFormed = true ∧ ⟨0x01#8 :: cs, lens, d⟩ = (encode i).append rest := by
  cases lens with
  | nil => rw [decodeUpdate_nil] at h; cases h
  | cons len lens =>
    rcases Nat.lt_or_ge d.length len.toNat with hshort | hwhole
    · rw [decodeUpdate_short _ _ _ _ hshort] at h; cases h
    · rw [decodeUpdate_whole _ _ _ _ hwhole] at h
      cases h
      have hlen : (d.take len.toNat).length = len.toNat := List.length_take_of_le hwhole
      refine ⟨decide_eq_true (hlen.trans_lt len.isLt), ?_⟩
      simp only [encode, Ports.append, hlen, BitVec.ofNat_toNat, BitVec.setWidth_eq, List.take_append_drop]
      rfl

/-- The other way: a byte outside the code space decodes to nothing, and each of the seven to its own row. -/
theorem eq_encode_append_of_decode {p : Ports} {i : Instr} {rest : Ports} (h : decode p = .command i rest) :
    i.wellFormed = true ∧ p = (encode i).append rest := by
  obtain ⟨_ | ⟨cmd, cs⟩, lens, d⟩ := p
  · cases h
  by_cases hrow : cmd ∈ [0x00#8, 0x01#8, 0x02#8, 0x08#8, 0x09#8, 0x0A#8, 0x0B#8]
  · simp only [List.mem_cons, List.not_mem_nil, or_false] at hrow
    rcases hrow with rfl | rfl | rfl | rfl | rfl | rfl | rfl
    · rw [decode_init] at h; cases h; exact ⟨rfl, rfl⟩
    · rw [decode_update] at h; exact decodeUpdate_command h
    · rw [decode_final] at h; cases h; exact ⟨rfl, rfl⟩
    · rw [decode_sched] at h; cases h; exact ⟨rfl, rfl⟩
    · rw [decode_round] at h; cases h; exact ⟨rfl, rfl⟩
    · rw [decode_compress] at h; cases h; exact ⟨rfl, rfl⟩
    · rw [decode_pad] at h; cases h; exact ⟨rfl, rfl⟩
  · rw [decode_reserved cmd cs lens d hrow] at h; cases h

end Sys2Proof

open Sys2Proof Sys2Proof.Machine

/-- Settles O1, row by row; for UPDATE the length written is the length read, since it fits the 64-bit operand. -/
theorem decodeAfterEncodeGivesOperationBack : Obligations.DecodeAfterEncodeGivesOperationBack :=
  decode_encode_append

/-- Settles O2, byte by byte over the code space. -/
theorem encodeAfterDecodeGivesPortsBack : Obligations.EncodeAfterDecodeGivesPortsBack :=
  fun _ _ _ => eq_encode_append_of_decode

/-- Settles O4, by evaluating the decoder on the words listed. -/
theorem tableWordsDecodeAsListed : Obligations.TableWordsDecodeAsListed := by
  unfold Obligations.TableWordsDecodeAsListed
  decide

end

section
/-!
PROOFS. UPDATE: what it counts, what it writes and leaves, and what decides its refusal (R32, R124 to R128).
-/

namespace Sys2Proof.Machine

/-- Within the bound the counter does not wrap (R125, R126). -/
theorem absorb_bitCount_toNat (data : List Byte) (s : State)
    (hbound : s.bitCount.toNat + 8 * data.length < 2 ^ 64) :
    (absorb data s).bitCount.toNat = s.bitCount.toNat + 8 * data.length := by
  rw [absorb_bitCount, BitVec.toNat_add, BitVec.toNat_ofNat, Nat.add_mod_mod, Nat.mod_eq_of_lt hbound]

theorem absorb_samePorts (data : List Byte) (s : State) : SamePorts s (absorb data s) where
  dout := absorb_dout data s
  outcome := absorb_outcome data s
  ports := absorb_ports data s
  resetLine := absorb_resetLine data s
  draws := absorb_draws data s

/-- Below one Block the bytes only go to the buffer, no byte at all included (R123, R127). -/
theorem absorb_of_short (data : List Byte) (s : State) (hshort : s.fill + data.length < 64) :
    absorb data s = bufferBytes s.fill data (countBits data.length s) := by
  obtain ⟨rfl, h⟩ | ⟨-, -, h⟩ | ⟨-, hlong, -⟩ := absorb_cases data s
  · have hcount : countBits ([] : List Byte).length s = s := by simp [countBits]
    rw [h, hcount, bufferBytes, memWrite_nil]
  · exact h
  · omega

/-- From one Block up the bytes complete the buffer and the trailing bytes start it anew (R128). -/
theorem absorb_buf_of_long (data : List Byte) (s : State) (hlong : 64 ≤ s.fill + data.length) :
    (absorb data s).buf = memWrite (memWrite s.buf s.fill (data.take (64 - s.fill))) 0
      (data.drop (64 - s.fill + 64 * ((data.length - (64 - s.fill)) / 64))) := by
  have hfill := fill_lt s
  obtain ⟨rfl, -⟩ | ⟨-, hshort, -⟩ | ⟨-, -, h⟩ := absorb_cases data s
  · simp only [List.length_nil] at hlong
    omega
  · omega
  · simp [h, absorbBlocks_eq]

/-- Below one Block the buffer is written at `fill .. fill + len - 1` only. -/
theorem absorb_buf_outside_of_short (data : List Byte) (s : State) (hshort : s.fill + data.length < 64) (a : Nat)
    (ha : a < 64) (houtside : a < s.fill ∨ s.fill + data.length ≤ a) : (absorb data s).buf[a] = s.buf[a] := by
  simp only [absorb_of_short data s hshort, bufferBytes_buf, countBits_buf]
  exact memWrite_outside _ _ _ _ ha houtside

theorem absorb_buf_inside_of_short (data : List Byte) (s : State) (hshort : s.fill + data.length < 64) (j : Nat)
    (hj : j < data.length) : (absorb data s).buf[s.fill + j] = data[j] := by
  have hoffset : s.fill + j - s.fill = j := Nat.add_sub_cancel_left _ _
  simp only [absorb_of_short data s hshort, bufferBytes_buf, countBits_buf]
  rw [memWrite_inside _ _ _ _ (by omega) (Nat.le_add_right _ _) (by omega)]
  simp only [hoffset]

/-- From one Block up the bytes between the new fill and the old one are in neither of the two ranges written. -/
theorem absorb_buf_between_of_long (data : List Byte) (s : State) (hlong : 64 ≤ s.fill + data.length) (a : Nat)
    (ha : a < 64) (hnew : (s.fill + data.length) % 64 ≤ a) (hold : a < s.fill) :
    (absorb data s).buf[a] = s.buf[a] := by
  simp only [absorb_buf_of_long data s hlong]
  have hfill := fill_lt s
  have htrailing : 0 + (data.drop (64 - s.fill + 64 * ((data.length - (64 - s.fill)) / 64))).length ≤ a := by
    rw [List.length_drop]
    omega
  rw [memWrite_outside _ _ _ _ ha (.inr htrailing), memWrite_outside _ _ _ _ ha (.inl hold)]

/-- The preconditions read the lifecycle, the counter and the length (R32). -/
theorem updateRefusal_congr (len : Nat) {s s' : State} (hphase : s.phase = s'.phase)
    (hcount : s.bitCount = s'.bitCount) : updateRefusal len s = updateRefusal len s' := by
  rw [updateRefusal, updateRefusal, hphase, hcount]

end Sys2Proof.Machine

open Sys2Proof Sys2Proof.Machine

/-- Settles O15: the counter does not wrap within the bound, and the fill is computed from it. -/
theorem updateCountsEightBitsAByte : Obligations.UpdateCountsEightBitsAByte := fun data s hactive hbound =>
  ⟨absorb data s, exec_update_within data s hactive hbound, absorb_bitCount_toNat data s hbound,
    absorb_fill data s hbound⟩

/-- Settles O16: one write to the buffer at the old fill. -/
theorem updateBuffersShortInput : Obligations.UpdateBuffersShortInput := by
  intro data s hactive hbound hshort
  refine ⟨absorb data s, exec_update_within data s hactive hbound, ?state, absorb_phase data s, ?scratch,
    absorb_samePorts data s, absorb_bitCount data s, ?inside, ?outside⟩
  case state => rw [absorb_of_short data s hshort, bufferBytes_h, countBits_h]
  case scratch => rw [absorb_of_short data s hshort, bufferBytes_scratch, countBits_scratch]
  case inside =>
    intro j hj
    rw [Vector.getElem?_eq_getElem (by omega), List.getElem?_eq_getElem hj,
      absorb_buf_inside_of_short data s hshort j hj]
  case outside =>
    intro a houtside
    rcases Nat.lt_or_ge a 64 with ha | ha
    · rw [Vector.getElem?_eq_getElem ha, Vector.getElem?_eq_getElem ha,
        absorb_buf_outside_of_short data s hshort a ha houtside]
    · rw [Vector.getElem?_eq_none ha, Vector.getElem?_eq_none ha]

/-- Settles O18, with the ranges written in the two cases. -/
theorem updateFrame : Obligations.UpdateFrame := by
  intro data s t hupdate
  obtain ⟨-, -, rfl⟩ := (execUpdate_next_iff data s t).mp hupdate
  refine ⟨absorb_samePorts data s, absorb_phase data s, fun hshort => ⟨?state, fun a => ?short⟩, fun hlong a ha => ?long⟩
  case state => rw [absorb_of_short data s hshort, bufferBytes_h, countBits_h]
  case short => exact absorb_buf_outside_of_short data s hshort a.val a.isLt
  case long => exact absorb_buf_between_of_long data s hlong a.val a.isLt ha.1 ha.2

/-- Settles O21: both outcomes are decided by the same preconditions. -/
theorem updateRefusalIndependentOfData : Obligations.UpdateRefusalIndependentOfData := by
  intro data data' s s' r hphase hcount hlen
  exact (execUpdate_refused_iff data s r).trans <| by
    rw [hlen, updateRefusal_congr _ hphase hcount]
    exact (execUpdate_refused_iff data' s' r).symm

end

section
/-!
PROOFS. The message the Context holds, however it was split, and the bytes no rule reads (R23, R35, R129, R130).
-/

namespace Sys2Proof.Machine

/-- After UPDATE the buffered bytes, read at the new fill, are the tail of the old ones followed by the input. -/
theorem absorb_buffered (data : List Byte) (s : State) (hbound : s.bitCount.toNat + 8 * data.length < 2 ^ 64) :
    memRead (absorb data s).buf 0 (absorb data s).fill = tailOf (memRead s.buf 0 s.fill ++ data) := by
  rw [absorb_fill data s hbound, absorb_pending]

namespace Holds

variable {m : List Byte} {s t : State}

/-- The message is in `phase`, `H`, `bitCount` and the buffered bytes alone. -/
theorem of_sameContext (hm : Holds m s) (hst : SameContext s t) : Holds m t where
  active := hst.phase ▸ hm.active
  count := hst.bitCount ▸ hm.count
  chained := hst.h ▸ hm.chained
  pending := hst.pending ▸ hm.pending

theorem fill_eq (hm : Holds m s) : s.fill = m.length % 64 := by
  rw [State.fill, fillOf, hm.count, Nat.mul_div_cancel_left _ (by decide)]

theorem bitCount_eq (hm : Holds m s) : s.bitCount = BitVec.ofNat 64 (8 * m.length) := by
  rw [← hm.count, BitVec.ofNat_toNat, BitVec.setWidth_eq]

/-- The bound of R126 on the counter is the bound on the message. -/
theorem bound_iff (hm : Holds m s) (data : List Byte) :
    s.bitCount.toNat + 8 * data.length < 2 ^ 64 ↔ 8 * (m.length + data.length) < 2 ^ 64 := by
  rw [hm.count, Nat.mul_add]

/-- UPDATE extends the message: only its tail matters for the Blocks still to come. -/
theorem absorb (hm : Holds m s) {data : List Byte} (hbound : s.bitCount.toNat + 8 * data.length < 2 ^ 64) :
    Holds (m ++ data) (Machine.absorb data s) where
  active := (absorb_phase data s).trans hm.active
  count := by rw [absorb_bitCount_toNat data s hbound, hm.count, List.length_append, Nat.mul_add]
  chained := by rw [absorb_h, hm.pending, hm.chained, ← chain_append, ← blocksOf_append_tail]
  pending := by rw [absorb_buffered data s hbound, hm.pending, ← tailOf_append_tail]

end Holds

/-- The empty message is what INIT leaves. -/
theorem holds_nil_of_init (s : State) : Holds [] { s with h := IV, bitCount := 0#64, phase := .active } where
  active := rfl
  count := rfl
  chained := rfl
  pending := by rw [fill_of_bitCount_zero rfl]; rfl

namespace SameContext

variable {s t u : State}

theorem trans (hst : SameContext s t) (htu : SameContext t u) : SameContext s u where
  phase := hst.phase.trans htu.phase
  h := hst.h.trans htu.h
  bitCount := hst.bitCount.trans htu.bitCount
  pending := hst.pending.trans htu.pending

/-- UPDATE reads nothing that two agreeing Contexts could differ in. -/
theorem absorb (hst : SameContext s t) {data : List Byte} (hbound : s.bitCount.toNat + 8 * data.length < 2 ^ 64) :
    SameContext (Machine.absorb data s) (Machine.absorb data t) where
  phase := by rw [absorb_phase, absorb_phase, hst.phase]
  h := by rw [absorb_h, absorb_h, hst.h, hst.pending]
  bitCount := by rw [absorb_bitCount, absorb_bitCount, hst.bitCount]
  pending := by rw [absorb_buffered data s hbound, absorb_buffered data t (hst.bitCount ▸ hbound), hst.pending]

end SameContext

/-- Two UPDATEs and one of the bytes of both leave the same Context. -/
theorem sameContext_absorb_append (a b : List Byte) (s : State)
    (hbound : s.bitCount.toNat + 8 * (a ++ b).length < 2 ^ 64) :
    SameContext (absorb b (absorb a s)) (absorb (a ++ b) s) := by
  have ha : s.bitCount.toNat + 8 * a.length < 2 ^ 64 := by rw [List.length_append] at hbound; omega
  have hb : (absorb a s).bitCount.toNat + 8 * b.length < 2 ^ 64 := by
    rw [absorb_bitCount_toNat a s ha]
    rw [List.length_append] at hbound
    omega
  constructor
  case phase => rw [absorb_phase, absorb_phase, absorb_phase]
  case h =>
    rw [absorb_h, absorb_h, absorb_h, absorb_buffered a s ha, ← chain_append, ← blocksOf_append_tail,
      List.append_assoc]
  case bitCount =>
    rw [absorb_bitCount, absorb_bitCount, absorb_bitCount, List.length_append, Nat.mul_add, BitVec.ofNat_add,
      BitVec.add_assoc]
  case pending =>
    rw [absorb_buffered b _ hb, absorb_buffered a s ha, absorb_buffered (a ++ b) s hbound, ← tailOf_append_tail,
      List.append_assoc]

theorem feed_cons_within (c : List Byte) (cs : List (List Byte)) (s : State) (hactive : s.phase = .active)
    (hbound : s.bitCount.toNat + 8 * c.length < 2 ^ 64) : feed (c :: cs) s = feed cs (absorb c s) := by
  rw [feed, exec_update_within c s hactive hbound, andThen]

/-- The chunks one after the other complete, in the Context of one UPDATE of them all (R130). -/
theorem feed_sameContext_absorb_flatten (chunks : List (List Byte)) (s : State) (hactive : s.phase = .active)
    (hbound : s.bitCount.toNat + 8 * chunks.flatten.length < 2 ^ 64) :
    ∃ t, feed chunks s = .next t ∧ SameContext t (absorb chunks.flatten s) := by
  induction chunks generalizing s with
  | nil => exact ⟨s, rfl, by rw [List.flatten_nil, absorb_nil]; exact ⟨rfl, rfl, rfl, rfl⟩⟩
  | cons c cs ih =>
    rw [List.flatten_cons] at hbound ⊢
    have hlen : (c ++ cs.flatten).length = c.length + cs.flatten.length := List.length_append
    have hc : s.bitCount.toNat + 8 * c.length < 2 ^ 64 := by omega
    have hactive' : (absorb c s).phase = .active := (absorb_phase c s).trans hactive
    have hcs : (absorb c s).bitCount.toNat + 8 * cs.flatten.length < 2 ^ 64 := by
      rw [absorb_bitCount_toNat c s hc]
      omega
    obtain ⟨t, hfeed, hsame⟩ := ih (absorb c s) hactive' hcs
    exact ⟨t, (feed_cons_within c cs s hactive hc).trans hfeed,
      hsame.trans (sameContext_absorb_append c cs.flatten s hbound)⟩

end Sys2Proof.Machine

open Sys2Proof Sys2Proof.Machine

/-- Settles O19: within the bound UPDATE answers `absorb`, which extends the message held. -/
theorem updateExtendsHeldMessage : Obligations.UpdateExtendsHeldMessage := by
  intro m data s hm hbound
  have hcount := (hm.bound_iff data).mpr hbound
  exact ⟨absorb data s, exec_update_within data s hm.active hcount, hm.absorb hcount⟩

/-- Settles O20, by induction on the chunks. -/
theorem streamingEquivalence : Obligations.StreamingEquivalence := by
  intro chunks s hactive hbound
  obtain ⟨t, hfeed, hsame⟩ := feed_sameContext_absorb_flatten chunks s hactive hbound
  exact ⟨t, _, hfeed, exec_update_within _ s hactive hbound, hsame⟩

/-- Settles O46: the preconditions read `phase` and `bitCount`, which agree; within them UPDATE keeps the agreement. -/
theorem staleBytesNeverReachContext : Obligations.StaleBytesNeverReachContext := by
  intro data s s' hsame
  by_cases hactive : s.phase = .active
  · by_cases hbound : s.bitCount.toNat + 8 * data.length < 2 ^ 64
    · right
      exact ⟨_, _, exec_update_within data s hactive hbound,
        exec_update_within data s' (hsame.phase ▸ hactive) (hsame.bitCount ▸ hbound), hsame.absorb hbound⟩
    · left
      have hover : 2 ^ 64 ≤ s.bitCount.toNat + 8 * data.length := Nat.not_lt.mp hbound
      exact ⟨_, exec_update_overflow data s hactive hover,
        exec_update_overflow data s' (hsame.phase ▸ hactive) (hsame.bitCount ▸ hover)⟩
  · left
    exact ⟨_, exec_update_outside data s hactive, exec_update_outside data s' (hsame.phase ▸ hactive)⟩

end

section
/-!
PROOFS. PAD and FINAL: their frames, the digest of the message held, and how often COMPRESS runs (R72, R73, R110 to R116,
R131).
-/

namespace Sys2Proof.Machine

/-- COMPRESS writes `H` and the scratch space only (R98). -/
theorem compressBlocks_writes (bs : List Block) (s : State) :
    compressBlocks bs s = { s with h := (compressBlocks bs s).h, scratch := (compressBlocks bs s).scratch } := by
  induction bs generalizing s with
  | nil => rfl
  | cons b bs ih => exact ih (compressBlock b s)

/-- UPDATE's compressions leave the `H` and the scratch space it answers with. -/
theorem absorb_h_eq_compressBlocks (data : List Byte) (s : State) :
    (absorb data s).h = (compressBlocks (blocksOf (memRead s.buf 0 s.fill ++ data)) s).h := by
  rw [absorb_h, compressBlocks_h]

theorem absorb_scratch_eq_compressBlocks (data : List Byte) (s : State) :
    (absorb data s).scratch = (compressBlocks (blocksOf (memRead s.buf 0 s.fill ++ data)) s).scratch :=
  (congrArg State.scratch (absorb_eq_compressBlocks data s) :)

theorem blocksOf_length (bytes : List Byte) : (blocksOf bytes).length = bytes.length / 64 := by
  rw [blocksOf, List.length_map, List.length_range]

theorem memRead_fill_length (s : State) : (memRead s.buf 0 s.fill).length = s.fill :=
  memRead_length _ _ _ (by have := fill_lt s; omega)

theorem padBlocks_length (buf : Memory) (c : Count) :
    (padBlocks buf c).length = if fillOf c < 56 then 1 else 2 := by
  split
  · rw [padBlocks_one _ _ ‹_›, List.length_singleton]
  · rw [padBlocks_two _ _ (Nat.not_lt.mp ‹_›), List.length_cons, List.length_singleton]

theorem zeroFill_mod (n : Nat) : zeroFill (n % 64) = zeroFill n := by
  rw [zeroFill, zeroFill, Nat.mod_mod]

/-- The zero fill ends the last Block: after the message, `0x80` and eight bytes of length nothing is left over (R73). -/
theorem paddedMessage_length (m : List Byte) :
    (paddedMessage m).length = if m.length % 64 < 56 then 64 * (m.length / 64 + 1) else 64 * (m.length / 64 + 2) := by
  have hlen : (paddedMessage m).length = m.length + 1 + zeroFill m.length + 8 := by
    simp only [paddedMessage, List.length_append, List.length_singleton, List.length_replicate, be64_length]
  rw [hlen, zeroFill]
  split <;> omega

/-- PAD reads the buffer below the fill only (R116). -/
theorem SameContext.padBlocks_eq {s t : State} (hst : SameContext s t) :
    padBlocks s.buf s.bitCount = padBlocks t.buf t.bitCount := by
  have hpending : memRead s.buf 0 (fillOf s.bitCount) = memRead t.buf 0 (fillOf t.bitCount) := hst.pending
  rw [Machine.padBlocks_eq, Machine.padBlocks_eq, hpending, hst.bitCount]

/-- The Blocks of the padded message are those UPDATE has compressed and then those of PAD (R111). -/
theorem Holds.blocksOf_paddedMessage {m : List Byte} {s : State} (hm : Holds m s) :
    blocksOf (paddedMessage m) = blocksOf m ++ padBlocks s.buf s.bitCount := by
  have hfill : fillOf s.bitCount = m.length % 64 := hm.fill_eq
  have hpending : memRead s.buf 0 (m.length % 64) = tailOf m := hm.fill_eq ▸ hm.pending
  rw [Machine.padBlocks_eq, hfill, hpending, zeroFill_mod, hm.bitCount_eq, paddedMessage, List.append_assoc,
    List.append_assoc, blocksOf_append_tail m, List.append_assoc, List.append_assoc]

/-- The padded message has one or two Blocks more than the message has whole ones (R73). -/
theorem blocksOf_paddedMessage_length (m : List Byte) :
    (blocksOf (paddedMessage m)).length = if m.length % 64 < 56 then m.length / 64 + 1 else m.length / 64 + 2 := by
  rw [blocksOf_length, paddedMessage_length]
  split <;> rw [Nat.mul_div_cancel_left _ (by decide)]

/-- FINAL digests the message held. -/
theorem Holds.finalContext_dout {m : List Byte} {s : State} (hm : Holds m s) :
    (finalContext s).dout = messageDigest m := by
  rw [Machine.finalContext_dout, padContext_h, hm.chained, ← chain_append, ← hm.blocksOf_paddedMessage, messageDigest]

end Sys2Proof.Machine

open Sys2Proof Sys2Proof.Machine

/-- Settles O11: INIT answers a state with the old buffer. -/
theorem initLeavesBufferBytes : Obligations.InitLeavesBufferBytes := by
  intro s t hinit a
  rw [(execInit_next_iff s t).mp hinit]

/-- Settles O26, one operation after the other; PAD and COMPRESS write `H`, the other two do not. -/
theorem internalOperationsFrame : Obligations.InternalOperationsFrame := by
  intro i s hinternal
  cases i with
  | init => cases hinternal
  | update data => cases hinternal
  | final => cases hinternal
  | sched => exact ⟨_, exec_sched_eq s, ⟨rfl, rfl, rfl, rfl, rfl⟩, rfl, rfl, fun _ => rfl, fun _ => rfl⟩
  | round => exact ⟨_, exec_round_eq s, ⟨rfl, rfl, rfl, rfl, rfl⟩, rfl, rfl, fun _ => rfl, fun _ => rfl⟩
  | compress =>
    exact ⟨_, exec_compress_eq s, ⟨rfl, rfl, rfl, rfl, rfl⟩, rfl, rfl, fun _ => rfl, fun h => by simp at h⟩
  | pad =>
    exact ⟨_, exec_pad_eq s, ⟨padContext_dout s, padContext_outcome s, padContext_ports s, padContext_resetLine s,
      padContext_draws s⟩, padContext_phase s, padContext_bitCount s, fun a => by rw [padContext_buf],
      fun h => by simp at h⟩

/-- Settles O38: PAD is a sequence of compressions. -/
theorem padWritesOnlyH : Obligations.PadWritesOnlyH := by
  intro s t hpad
  cases (exec_pad_eq s).symm.trans hpad
  exact compressBlocks_writes _ s

/-- Settles O40, by what FINAL answers. -/
theorem finalFrame : Obligations.FinalFrame := by
  intro s t hfinal
  obtain ⟨-, rfl⟩ := (execFinal_next_iff s t).mp hfinal
  exact ⟨finalContext_ports s, finalContext_resetLine s, by rw [finalContext_outcome, finalContext_dout]⟩

/-- Settles O42: PAD continues the chain of the message held through the rest of the padded message. -/
theorem finalDigestsHeldMessage : Obligations.FinalDigestsHeldMessage := fun _ s hm _ =>
  ⟨_, exec_final_of_active s hm.active, hm.finalContext_dout⟩

/-- Settles O43, by the length of the zero fill. -/
theorem paddedMessageLength : Obligations.PaddedMessageLength := paddedMessage_length

/-- Settles O45: the digest is that of `H` chained through PAD's Blocks, and these agree. -/
theorem staleBytesNeverReachDigest : Obligations.StaleBytesNeverReachDigest := by
  intro s s' t t' hsame hfinal hfinal'
  obtain ⟨-, rfl⟩ := (execFinal_next_iff s t).mp hfinal
  obtain ⟨-, rfl⟩ := (execFinal_next_iff s' t').mp hfinal'
  rw [finalContext_dout, finalContext_dout, padContext_h, padContext_h, hsame.h, hsame.padBlocks_eq]

/-- Settles O44: UPDATE compresses the whole Blocks of the buffered bytes followed by the data, PAD what is left of the
padded message. -/
theorem compressionCounts : Obligations.CompressionCounts := by
  refine ⟨fun data s hactive hbound => ?update, fun m data s hm => ?sum, fun s => ?pad, fun m s hbound => ?whole⟩
  case update =>
    refine ⟨_, _, exec_update_within data s hactive hbound, absorb_eq_compressBlocks data s, rfl, ?_⟩
    rw [blocksOf_length, List.length_append, memRead_fill_length]
  case sum =>
    rw [hm.fill_eq, List.length_append]
    omega
  case pad =>
    exact ⟨_, exec_pad_eq s, rfl, padBlocks_length s.buf s.bitCount,
      fun hactive => ⟨_, exec_final_of_active s hactive, finalContext_dout s⟩⟩
  case whole =>
    obtain ⟨s0, hinit, hempty⟩ : ∃ s0, exec .init s = .next s0 ∧ Holds [] s0 :=
      ⟨_, exec_init_eq s, holds_nil_of_init s⟩
    have hcount : s0.bitCount.toNat + 8 * m.length < 2 ^ 64 := (hempty.bound_iff m).mpr (by simpa using hbound)
    have hm : Holds m (absorb m s0) := hempty.absorb hcount
    have hnothing : memRead s0.buf 0 s0.fill ++ m = m := by rw [hempty.pending]; rfl
    have hblocks := hm.blocksOf_paddedMessage
    refine ⟨s0, _, _, blocksOf m, _, hinit, exec_update_within m s0 hempty.active hcount,
      exec_final_of_active _ hm.active, ?state, ?scratch, rfl, finalContext_dout _, hblocks.symm, blocksOf_length m, ?total⟩
    case state => rw [absorb_h_eq_compressBlocks, hnothing]
    case scratch => rw [absorb_scratch_eq_compressBlocks, hnothing]
    case total => rw [← hblocks, blocksOf_paddedMessage_length]

end

section
/-!
PROOFS. The step: one command, a wait or a reset, and what each can change (R49, R148, R159, R165 to R167).
-/

namespace Sys2Proof

/-- Where no whole command stands on the ports: no command byte, UPDATE without its length, UPDATE without its data. -/
theorem portDecode_of_no_cmd {p : Ports} (h : p.cmd = []) : portDecode p = .idle := by
  obtain ⟨cmd, lens, d⟩ := p
  cases h
  rfl

theorem portDecode_of_no_len {p : Ports} {cs : List Byte} (hcmd : p.cmd = 0x01#8 :: cs) (hlen : p.len = []) :
    portDecode p = .awaitLen := by
  obtain ⟨cmd, lens, d⟩ := p
  cases hcmd
  cases hlen
  rw [portDecode, decode_update, decodeUpdate_nil]

theorem portDecode_of_short_data {p : Ports} {cs : List Byte} {len : Count} {lens : List Count}
    (hcmd : p.cmd = 0x01#8 :: cs) (hlen : p.len = len :: lens) (hdata : p.data.length < len.toNat) :
    portDecode p = .awaitData len := by
  obtain ⟨cmd, lens', d⟩ := p
  cases hcmd
  cases hlen
  rw [portDecode, decode_update, decodeUpdate_short _ _ _ _ hdata]

end Sys2Proof

namespace Sys2Proof.Machine

theorem portsBehindCommand_command {p rest : Ports} {i : Instr} (h : portDecode p = .command i rest) :
    portsBehindCommand p = rest := by
  rw [portsBehindCommand, h]

theorem portsBehindCommand_no_command {p : Ports} (h : ∀ i rest, portDecode p ≠ .command i rest) :
    portsBehindCommand p = p := by
  unfold portsBehindCommand
  split
  · exact absurd ‹_› (h _ _)
  all_goals rfl

section

variable {s : State}

theorem step_applied (h : s.resetLine = .applied) : step s = .next (applyReset s.ports s) := by
  rw [step, h]

theorem step_appliedInCommand (h : s.resetLine = .appliedInCommand) :
    step s = .next (applyReset (portsBehindCommand s.ports) s) := by
  rw [step, h]

/-- A reset is a reset, wherever it hits; only the ports it leaves differ. -/
theorem step_of_reset (h : s.resetLine ≠ .released) : ∃ rest, step s = .next (applyReset rest s) := by
  cases hline : s.resetLine with
  | released => exact absurd hline h
  | applied => exact ⟨_, step_applied hline⟩
  | appliedInCommand => exact ⟨_, step_appliedInCommand hline⟩

variable (hreleased : s.resetLine = .released)
include hreleased

theorem step_command {i : Instr} {rest : Ports} (h : portDecode s.ports = .command i rest) :
    step s = endCommand (exec i (acceptCommand rest s)) := by
  rw [step_released s hreleased, stepPort, h]
  rfl

theorem step_idle (h : portDecode s.ports = .idle) : step s = .next s := by
  rw [step_released s hreleased, stepPort, h]

theorem step_awaitLen (h : portDecode s.ports = .awaitLen) : step s = .next s := by
  rw [step_released s hreleased, stepPort, h]

theorem step_awaitData {len : Count} (h : portDecode s.ports = .awaitData len) : step s = awaitData len s := by
  rw [step_released s hreleased, stepPort, h]

theorem step_reserved {cmd : Byte} (h : portDecode s.ports = .reserved cmd) : step s = .refused .reservedCommand := by
  rw [step_released s hreleased, stepPort, h]

end

theorem awaitData_refused {len : Count} {s : State} {r : Refusal} (h : updateRefusal len.toNat s = some r) :
    awaitData len s = .refused r := by
  rw [awaitData, h]

theorem awaitData_waits {len : Count} {s : State} (h : updateRefusal len.toNat s = none) : awaitData len s = .next s := by
  rw [awaitData, h]

/-- An UPDATE that waits for its data leaves the state, where it is not refused. -/
theorem awaitData_next {len : Count} {s t : State} (h : awaitData len s = .next t) : t = s := by
  unfold awaitData at h
  split at h
  · cases h
  · cases h; rfl

/-- The ways a step answers a next state: a reset, a wait, and each host command with the state it leaves. -/
inductive StepKind (s t : State) : Prop
  | reset (rest : Ports) (happlied : s.resetLine ≠ .released) (ht : t = applyReset rest s)
  | wait (ht : t = s)
  | init (rest : Ports) (hreleased : s.resetLine = .released) (hport : portDecode s.ports = .command .init rest)
      (ht : t = scrambleScratch { acceptCommand rest s with h := IV, bitCount := 0#64, phase := .active })
  | update (data : List Byte) (rest : Ports) (hactive : s.phase = .active)
      (hbound : s.bitCount.toNat + 8 * data.length < 2 ^ 64)
      (ht : t = scrambleScratch (absorb data (acceptCommand rest s)))
  | final (rest : Ports) (hreleased : s.resetLine = .released) (hactive : s.phase = .active)
      (hport : portDecode s.ports = .command .final rest)
      (ht : t = scrambleScratch (finalContext (acceptCommand rest s)))

theorem stepKind_of_step {s t : State} (h : step s = .next t) : StepKind s t := by
  obtain ⟨happlied, rest, ht⟩ | ⟨-, ht⟩ | ⟨hreleased, i, rest, u, hport, hexec, rfl⟩ := step_cases s t h
  · exact .reset rest happlied ht
  · exact .wait ht
  · have hhost : isHostCommand i = true := ((portDecode_command_iff _ _ _).mp hport).2
    cases i with
    | init => exact .init rest hreleased hport (by rw [(execInit_next_iff _ u).mp hexec])
    | update data =>
      obtain ⟨hactive, hbound, rfl⟩ := (execUpdate_next_iff data _ u).mp hexec
      exact .update data rest hactive hbound rfl
    | final =>
      obtain ⟨hactive, rfl⟩ := (execFinal_next_iff _ u).mp hexec
      exact .final rest hreleased hactive hport rfl
    | sched => cases hhost
    | round => cases hhost
    | compress => cases hhost
    | pad => cases hhost

/-- Accepting a command leaves the Context, and so does forgetting the scratch space at its end. -/
theorem sameContext_acceptCommand (rest : Ports) (s : State) : SameContext s (acceptCommand rest s) :=
  ⟨rfl, rfl, rfl, rfl⟩

theorem sameContext_scrambleScratch (s : State) : SameContext s (scrambleScratch s) := ⟨rfl, rfl, rfl, rfl⟩

theorem contextInv_of_holds {m : List Byte} {s : State} (h : Holds m s) : ContextInv s := fun _ => ⟨m, h⟩

theorem contextInv_of_not_active {s : State} (h : s.phase ≠ .active) : ContextInv s := fun hactive => absurd hactive h

/-- An outcome has at most one next state. -/
theorem next_unique {o : Outcome} {t : State} (h : o = .next t) (u : State) (hu : o = .next u) : t = u :=
  Host.Outcome.next.inj (h.symm.trans hu)

/-- The second reading goes on where `exec` refuses, and nothing else changes (R148). -/
theorem endCommand_orMisuse (before : State) (o : Outcome) :
    ∃ t, endCommand (orMisuse before o) = .next t ∧ (∀ u, endCommand o = .next u → t = u) ∧
      (∀ r, o = .refused r → t = scrambleScratch (misuse before)) := by
  cases o with
  | next u => exact ⟨_, rfl, next_unique rfl, fun r hr => (by cases hr)⟩
  | fault r => cases r
  | refused r => exact ⟨_, rfl, fun v hv => (by cases hv), fun _ _ => rfl⟩

section

variable {s : State}

theorem stepOrMisuse_of_reset (h : s.resetLine ≠ .released) : stepOrMisuse s = step s := by
  cases hline : s.resetLine with
  | released => exact absurd hline h
  | applied => rw [step_applied hline, stepOrMisuse, hline]
  | appliedInCommand => rw [step_appliedInCommand hline, stepOrMisuse, hline]

theorem stepOrMisuse_released (h : s.resetLine = .released) : stepOrMisuse s = stepPortOrMisuse s := by
  rw [stepOrMisuse, h]

end

end Sys2Proof.Machine

open Sys2Proof Sys2Proof.Machine

/-- Settles O51: only INIT and UPDATE leave ACTIVE, the one with the empty message, the other with the message extended. -/
theorem stepKeepsContextInvariant : Obligations.StepKeepsContextInvariant := by
  intro s t hinv hstep
  cases stepKind_of_step hstep with
  | reset rest happlied ht =>
    subst ht
    exact contextInv_of_not_active (by simp)
  | wait ht => exact ht ▸ hinv
  | init rest hreleased hport ht =>
    subst ht
    exact contextInv_of_holds ((holds_nil_of_init _).of_sameContext (sameContext_scrambleScratch _))
  | update data rest hactive hbound ht =>
    subst ht
    obtain ⟨m, hm⟩ := hinv hactive
    have haccepted : Holds m (acceptCommand rest s) := hm.of_sameContext (sameContext_acceptCommand rest s)
    exact contextInv_of_holds ((haccepted.absorb hbound).of_sameContext (sameContext_scrambleScratch _))
  | final rest hreleased hactive hport ht =>
    subst ht
    exact contextInv_of_not_active (by simp)

/-- Settles O52: the state after reset is not ACTIVE. -/
theorem resetHasContextInvariant : Obligations.ResetHasContextInvariant := contextInv_of_not_active (by decide)

/-- Settles O56, by the kinds of step; UPDATE keeps `phase`. -/
theorem onlyResetInitFinalChangePhase : Obligations.OnlyResetInitFinalChangePhase := by
  intro s t hstep
  cases stepKind_of_step hstep with
  | reset rest happlied ht => exact .inr (.inl ⟨by rw [ht, applyReset_phase], happlied⟩)
  | wait ht => exact .inl (by rw [ht])
  | init rest hreleased hport ht => exact .inr (.inr (.inl ⟨by rw [ht, scrambleScratch_phase], rest, hport⟩))
  | update data rest hactive hbound ht =>
    exact .inl (by rw [ht, scrambleScratch_phase, absorb_phase, acceptCommand_phase])
  | final rest hreleased hactive hport ht =>
    exact .inr (.inr (.inr ⟨by rw [ht, scrambleScratch_phase, finalContext_phase], hactive, rest, hport⟩))

/-- Settles O55, by the kinds of step; all but FINAL keep the record. -/
theorem onlyFinalReturnsData : Obligations.OnlyFinalReturnsData := by
  intro s t hstep hrecord
  cases stepKind_of_step hstep with
  | reset rest happlied ht => exact absurd (by rw [ht, applyReset_outcome]) hrecord
  | wait ht => exact absurd (by rw [ht]) hrecord
  | init rest hreleased hport ht => exact absurd (by rw [ht]; rfl) hrecord
  | update data rest hactive hbound ht =>
    exact absurd (by rw [ht, scrambleScratch_outcome, absorb_outcome, acceptCommand_outcome]) hrecord
  | final rest hreleased hactive hport ht =>
    refine ⟨hreleased, hactive, ⟨rest, hport⟩, ?_⟩
    rw [ht, scrambleScratch_outcome, scrambleScratch_dout, finalContext_outcome, finalContext_dout,
      acceptCommand_outcome]

/-- Settles O5: accepting a command and ending it are the two updates written out. -/
theorem stepRunsDecodedCommand : Obligations.StepRunsDecodedCommand := fun _ _ _ hreleased hhost hdecode =>
  ⟨step_command hreleased ((portDecode_command_iff _ _ _).mpr ⟨hdecode, hhost⟩), fun _ => rfl, fun _ => rfl⟩

/-- Settles O6. -/
theorem engineIdlesWithoutCommand : Obligations.EngineIdlesWithoutCommand := fun _ hreleased hcmd =>
  step_idle hreleased (portDecode_of_no_cmd hcmd)

/-- Settles O7: without its data an UPDATE's outcome is that of its preconditions, or a wait. -/
theorem incompleteUpdateWaitsOrIsRefused : Obligations.IncompleteUpdateWaitsOrIsRefused := by
  intro s cmds hreleased hcmd
  refine ⟨fun hlen => step_awaitLen hreleased (portDecode_of_no_len hcmd hlen), fun len lens hlen hdata => ?_⟩
  rw [step_awaitData hreleased (portDecode_of_short_data hcmd hlen hdata)]
  exact ⟨fun houtside => awaitData_refused (updateRefusal_outside _ s houtside),
    fun hactive hover => awaitData_refused (updateRefusal_overflow _ s hactive hover),
    fun hactive hbound => awaitData_waits (updateRefusal_within _ s hactive hbound)⟩

/-- Settles O8: the state after reset is UNINIT, which only INIT accepts. -/
theorem resetStateAcceptsOnlyInit : Obligations.ResetStateAcceptsOnlyInit := by
  have houtside : State.reset.phase ≠ .active := by decide
  exact ⟨rfl, fun data => exec_update_outside data _ houtside, exec_final_outside _ houtside, _, exec_init_eq _, rfl⟩

/-- Settles O9: both forms of reset apply it, and differ in the ports they leave. -/
theorem hardwareResetLeavesUninit : Obligations.HardwareResetLeavesUninit := by
  intro s happlied
  cases hline : s.resetLine with
  | released => exact absurd hline happlied
  | applied =>
    exact ⟨_, step_applied hline, applyReset_phase _ s, applyReset_resetLine _ s, applyReset_outcome _ s,
      fun _ => applyReset_ports _ s, fun _ _ h => (by cases h), fun _ => applyReset_ports _ s⟩
  | appliedInCommand =>
    refine ⟨_, step_appliedInCommand hline, applyReset_phase _ s, applyReset_resetLine _ s, applyReset_outcome _ s,
      fun h => (by cases h), fun i rest _ hport => ?hit, fun hnone => ?missed⟩
    case hit => rw [applyReset_ports, portsBehindCommand_command hport]
    case missed => rw [applyReset_ports, portsBehindCommand_no_command hnone]

/-- Settles O57: the second reading follows the step but where it refuses, and there it leaves the misused Context. -/
theorem misuseReadingNeverStops : Obligations.MisuseReadingNeverStops := by
  intro s
  by_cases hreleased : s.resetLine = .released
  swap
  · obtain ⟨rest, hstep⟩ := step_of_reset hreleased
    exact ⟨_, (stepOrMisuse_of_reset hreleased).trans hstep, next_unique hstep,
      fun _ _ _ h => absurd h hreleased, fun _ h => absurd h hreleased, fun _ h => absurd h hreleased⟩
  rw [stepOrMisuse_released hreleased, stepPortOrMisuse]
  cases hport : portDecode s.ports with
  | idle => exact ⟨s, rfl, next_unique (step_idle hreleased hport), by simp, by simp, by simp⟩
  | awaitLen => exact ⟨s, rfl, next_unique (step_awaitLen hreleased hport), by simp, by simp, by simp⟩
  | awaitData len =>
    exact ⟨s, rfl, fun u hu => (awaitData_next ((step_awaitData hreleased hport).symm.trans hu)).symm,
      by simp, by simp, by simp⟩
  | reserved cmd =>
    have hrefused := step_reserved hreleased hport
    refine ⟨_, rfl, fun u hu => ?_, by simp, fun _ _ _ => ⟨hrefused, rfl, rfl, rfl⟩, by simp⟩
    rw [hrefused] at hu; cases hu
  | command i rest =>
    have hstep := step_command hreleased hport
    obtain ⟨t, ht, hnext, hmisuse⟩ := endCommand_orMisuse (acceptCommand rest s) (exec i (acceptCommand rest s))
    refine ⟨t, ht, fun u hu => hnext u (hstep ▸ hu), fun j rest' r _ hj hr => ?_, by simp, by simp⟩
    cases hj
    rw [hstep, endCommand_refused_iff] at hr
    rw [hmisuse r hr]
    exact ⟨rfl, rfl, rfl⟩

end

section
/-!
PROOFS. Runs of the host: sequences of commands, HASH and DOUBLEHASH (R135 to R139, R168, R176).
-/

namespace Sys2Proof.Machine

/-- The step after the host has issued a command is that command, and the ports are as they were before it. -/
theorem issue_host {i : Instr} {s : State} (hreleased : s.resetLine = .released) (hhost : isHostCommand i = true)
    (hwf : i.wellFormed = true) : issue i s = endCommand (exec i (acceptCommand s.ports s)) :=
  step_command (s := present i s) hreleased
    ((portDecode_command_iff _ _ _).mpr ⟨decode_encode_append i s.ports hwf, hhost⟩)

/-- The port refuses the label of an internal operation (R64). -/
theorem issue_internal {i : Instr} {s : State} (hreleased : s.resetLine = .released) (hinternal : isHostCommand i = false)
    (hwf : i.wellFormed = true) : issue i s = .refused .reservedCommand :=
  step_reserved (s := present i s) (cmd := opcode i) hreleased
    ((portDecode_reserved_iff _ _).mpr (.inr ⟨i, s.ports, decode_encode_append i s.ports hwf, hinternal, rfl⟩))

theorem issue_next_of_exec {i : Instr} {s u : State} (hreleased : s.resetLine = .released)
    (hhost : isHostCommand i = true) (hwf : i.wellFormed = true) (hexec : exec i (acceptCommand s.ports s) = .next u) :
    issue i s = .next (scrambleScratch u) := by
  rw [issue_host hreleased hhost hwf, hexec, endCommand]

theorem issue_refused_of_exec {i : Instr} {s : State} {r : Refusal} (hreleased : s.resetLine = .released)
    (hhost : isHostCommand i = true) (hwf : i.wellFormed = true)
    (hexec : exec i (acceptCommand s.ports s) = .refused r) : issue i s = .refused r := by
  rw [issue_host hreleased hhost hwf, hexec, endCommand]

theorem wellFormed_update_of_bound {data : List Byte} {n : Nat} (hbound : n + 8 * data.length < 2 ^ 64) :
    (Instr.update data).wellFormed = true := by
  have hlen : data.length < 2 ^ 64 := by omega
  exact decide_eq_true hlen

section

variable {s : State} (hreleased : s.resetLine = .released)
include hreleased

theorem issue_update_overflow {data : List Byte} (hwf : (Instr.update data).wellFormed = true)
    (hactive : s.phase = .active) (hover : 2 ^ 64 ≤ s.bitCount.toNat + 8 * data.length) :
    issue (.update data) s = .refused .bitcountOverflow :=
  issue_refused_of_exec hreleased rfl hwf (exec_update_overflow data (acceptCommand s.ports s) hactive hover)

theorem issue_update_outside {data : List Byte} (hwf : (Instr.update data).wellFormed = true)
    (houtside : s.phase ≠ .active) : issue (.update data) s = .refused .updateOutsideLifecycle :=
  issue_refused_of_exec hreleased rfl hwf (exec_update_outside data (acceptCommand s.ports s) houtside)

theorem issue_final_outside (houtside : s.phase ≠ .active) : issue .final s = .refused .finalOutsideLifecycle :=
  issue_refused_of_exec hreleased rfl rfl (exec_final_outside (acceptCommand s.ports s) houtside)

end

/-- What the host sees of a run from `s` to `t`: reset released, the ports as before, and the digests `ds`. -/
structure Returned (ds : List Digest) (s t : State) : Prop where
  resetLine : t.resetLine = .released
  ports : t.ports = s.ports
  outcome : t.outcome = s.outcome ++ ds

theorem Returned.trans {ds es : List Digest} {s t u : State} (hst : Returned ds s t) (htu : Returned es t u) :
    Returned (ds ++ es) s u where
  resetLine := htu.resetLine
  ports := htu.ports.trans hst.ports
  outcome := by rw [htu.outcome, hst.outcome, List.append_assoc]

/-! Each host command within its preconditions: the Context it leaves and what the host sees of it. -/

section

variable {s : State} (hreleased : s.resetLine = .released)
include hreleased

theorem issue_init_holds : ∃ t, issue .init s = .next t ∧ Holds [] t ∧ Returned [] s t :=
  ⟨_, issue_next_of_exec hreleased rfl rfl (exec_init_eq _),
    (holds_nil_of_init _).of_sameContext (sameContext_scrambleScratch _), ⟨hreleased, rfl, (List.append_nil _).symm⟩⟩

theorem issue_update_next {data : List Byte} (hactive : s.phase = .active)
    (hbound : s.bitCount.toNat + 8 * data.length < 2 ^ 64) :
    ∃ t, issue (.update data) s = .next t ∧ SameContext (absorb data s) t ∧ Returned [] s t := by
  refine ⟨_, issue_next_of_exec hreleased rfl (wellFormed_update_of_bound hbound)
      (exec_update_within data (acceptCommand s.ports s) hactive hbound),
    ((sameContext_acceptCommand s.ports s).absorb hbound).trans (sameContext_scrambleScratch _), ?reset, ?ports, ?record⟩
  case reset => rw [scrambleScratch_resetLine, absorb_resetLine, acceptCommand_resetLine, hreleased]
  case ports => rw [scrambleScratch_ports, absorb_ports, acceptCommand_ports]
  case record => rw [scrambleScratch_outcome, absorb_outcome, acceptCommand_outcome, List.append_nil]

theorem issue_final_next (hactive : s.phase = .active) :
    ∃ t, issue .final s = .next t ∧ t.phase = .finalized ∧ t.dout = (finalContext s).dout ∧ Returned [t.dout] s t := by
  refine ⟨_, issue_next_of_exec hreleased rfl rfl (exec_final_of_active (acceptCommand s.ports s) hactive),
    ?phase, ?digest, ?reset, ?ports, ?record⟩
  case phase => rw [scrambleScratch_phase, finalContext_phase]
  case digest =>
    rw [scrambleScratch_dout, finalContext_dout, finalContext_dout, padContext_h, padContext_h, acceptCommand_h,
      acceptCommand_buf, acceptCommand_bitCount]
  case reset => rw [scrambleScratch_resetLine, finalContext_resetLine, acceptCommand_resetLine, hreleased]
  case ports => rw [scrambleScratch_ports, finalContext_ports, acceptCommand_ports]
  case record =>
    rw [scrambleScratch_outcome, scrambleScratch_dout, finalContext_outcome, finalContext_dout, acceptCommand_outcome]

variable {m : List Byte} (hm : Holds m s)
include hm

theorem issue_update_holds {data : List Byte} (hbound : 8 * (m.length + data.length) < 2 ^ 64) :
    ∃ t, issue (.update data) s = .next t ∧ Holds (m ++ data) t ∧ Returned [] s t := by
  have hcount := (hm.bound_iff data).mpr hbound
  obtain ⟨t, hupdate, hsame, hret⟩ := issue_update_next hreleased hm.active hcount
  exact ⟨t, hupdate, (hm.absorb hcount).of_sameContext hsame, hret⟩

theorem issue_final_holds :
    ∃ t, issue .final s = .next t ∧ t.phase = .finalized ∧ t.dout = messageDigest m ∧
      Returned [messageDigest m] s t := by
  obtain ⟨t, hfinal, hphase, hdout, hret⟩ := issue_final_next hreleased hm.active
  rw [hm.finalContext_dout] at hdout
  exact ⟨t, hfinal, hphase, hdout, hdout ▸ hret⟩

end

theorem issueAll_cons_next {i : Instr} {is : List Instr} {s t : State} (h : issue i s = .next t) :
    issueAll (i :: is) s = issueAll is t := by
  rw [issueAll, h, andThen]

theorem issueAll_cons_refused {i : Instr} {is : List Instr} {s : State} {r : Refusal} (h : issue i s = .refused r) :
    issueAll (i :: is) s = .refused r := by
  rw [issueAll, h, andThen]

theorem lifecycle_update_iff (p : Phase) (data : List Byte) (is : List Instr) :
    lifecycle p (.update data :: is) = true ↔ p = .active ∧ lifecycle p is = true := by
  rw [lifecycle, Bool.and_eq_true, decide_eq_true_eq]

theorem lifecycle_final_iff (p : Phase) (is : List Instr) :
    lifecycle p (.final :: is) = true ↔ p = .active ∧ lifecycle .finalized is = true := by
  rw [lifecycle, Bool.and_eq_true, decide_eq_true_eq]

theorem withinBound_update_iff (bits : Nat) (data : List Byte) (is : List Instr) :
    withinBound bits (.update data :: is) = true ↔
      bits + 8 * data.length < 2 ^ 64 ∧ withinBound (bits + 8 * data.length) is = true := by
  rw [withinBound, Bool.and_eq_true, decide_eq_true_eq]

/-- HASH returns the digest of its message, whatever the state held before (R135). -/
theorem hostHash_returned (m : List Byte) {s : State} (hreleased : s.resetLine = .released) (hlen : m.length < 2 ^ 61) :
    ∃ t, hostHash m s = .next t ∧ t.phase = .finalized ∧ t.dout = messageDigest m ∧ Returned [messageDigest m] s t := by
  have hbound : 8 * (([] : List Byte).length + m.length) < 2 ^ 64 := by rw [List.length_nil]; omega
  obtain ⟨s1, hinit, hempty, hret1⟩ := issue_init_holds hreleased
  obtain ⟨s2, hupdate, hm, hret2⟩ := issue_update_holds hret1.resetLine hempty hbound
  obtain ⟨t, hfinal, hphase, hdout, hret3⟩ := issue_final_holds hret2.resetLine hm
  refine ⟨t, ?_, hphase, hdout, (hret1.trans hret2).trans hret3⟩
  rw [hostHash, issueAll_cons_next hinit, issueAll_cons_next hupdate, issueAll_cons_next hfinal, issueAll]

/-- The second pass reads the digest as far as it goes, and then bytes of which nothing is known (R137 to R139). -/
theorem secondPass_eq (d : Digest) (draw n : Nat) :
    secondPass d draw n = d.toList.take n ++ (List.range (n - 32)).map (Config.overread draw n) := by
  have hlen : (secondPass d draw n).length = n := by rw [secondPass, List.length_map, List.length_range]
  apply List.ext_getElem
  · rw [hlen, List.length_append, List.length_take, Vector.length_toList, List.length_map, List.length_range]
    omega
  · intro j h1 h2
    rw [hlen] at h1
    simp only [secondPass, List.getElem_map, List.getElem_range]
    have htake : (d.toList.take n).length = min n 32 := by rw [List.length_take, Vector.length_toList]
    by_cases hj : j < 32
    · rw [dif_pos hj, List.getElem_append_left (by omega), List.getElem_take, Vector.getElem_toList]
    · have hoffset : j - (d.toList.take n).length = j - 32 := by omega
      rw [dif_neg hj, List.getElem_append_right (by omega), List.getElem_map, List.getElem_range, hoffset]

theorem secondPass_of_le (d : Digest) (draw : Nat) {n : Nat} (hn : n ≤ 32) :
    secondPass d draw n = d.toList.take n := by
  rw [secondPass_eq, Nat.sub_eq_zero_of_le hn, List.range_zero, List.map_nil, List.append_nil]

/-- DOUBLEHASH hashes its second pass, which has the length of the message (R136, R140). -/
theorem hostDoubleHash_dout (m : List Byte) {s : State} (hreleased : s.resetLine = .released)
    (hlen : m.length < 2 ^ 61) :
    ∃ (draw : Nat) (t : State), hostDoubleHash m s = .next t ∧
      t.dout = messageDigest (secondPass (messageDigest m) draw m.length) := by
  obtain ⟨t1, hfirst, -, hdout1, hret1⟩ := hostHash_returned m hreleased hlen
  have hpass : (secondPass t1.dout t1.draws m.length).length = m.length := by
    rw [secondPass, List.length_map, List.length_range]
  obtain ⟨t, hsecond, -, hdout, -⟩ := hostHash_returned (secondPass t1.dout t1.draws m.length)
    (s := { t1 with draws := t1.draws + 1 }) hret1.resetLine (by rw [hpass]; exact hlen)
  exact ⟨t1.draws, t, by rw [hostDoubleHash, hfirst, andThen, hsecond], by rw [hdout, hdout1]⟩

/-- A conforming run returns the digests of its messages: each command continues the message in progress or begins one. -/
theorem issueAll_returned (is : List Instr) (m : List Byte) (s : State) (hreleased : s.resetLine = .released)
    (hm : s.phase ≠ .active ∧ m = [] ∨ Holds m s) (hlife : lifecycle s.phase is = true)
    (hbound : withinBound (8 * m.length) is = true) :
    ∃ t, issueAll is s = .next t ∧ Returned (expectedDigests m is) s t := by
  induction is generalizing m s with
  | nil => exact ⟨s, rfl, hreleased, rfl, (List.append_nil _).symm⟩
  | cons i is ih =>
    cases i with
    | init =>
      obtain ⟨s1, hinit, hempty, hret⟩ := issue_init_holds hreleased
      obtain ⟨t, hrun, hrest⟩ := ih [] s1 hret.resetLine (.inr hempty) (hempty.active ▸ hlife) hbound
      exact ⟨t, (issueAll_cons_next hinit).trans hrun, hret.trans hrest⟩
    | update data =>
      obtain ⟨hactive, hlife⟩ := (lifecycle_update_iff _ _ _).mp hlife
      obtain ⟨hlen, hbound⟩ := (withinBound_update_iff _ _ _).mp hbound
      have hsum : 8 * m.length + 8 * data.length = 8 * (m ++ data).length := by
        rw [List.length_append, Nat.mul_add]
      have hheld : Holds m s := hm.resolve_left fun houtside => houtside.1 hactive
      obtain ⟨s1, hupdate, hm1, hret⟩ := issue_update_holds hreleased hheld (data := data) (by omega)
      obtain ⟨t, hrun, hrest⟩ := ih (m ++ data) s1 hret.resetLine (.inr hm1)
        (by rwa [hm1.active, ← hactive]) (hsum ▸ hbound)
      exact ⟨t, (issueAll_cons_next hupdate).trans hrun, hret.trans hrest⟩
    | final =>
      obtain ⟨hactive, hlife⟩ := (lifecycle_final_iff _ _).mp hlife
      have hheld : Holds m s := hm.resolve_left fun houtside => houtside.1 hactive
      obtain ⟨s1, hfinal, hphase, -, hret⟩ := issue_final_holds hreleased hheld
      obtain ⟨t, hrun, hrest⟩ := ih [] s1 hret.resetLine (.inl ⟨by rw [hphase]; decide, rfl⟩) (hphase ▸ hlife) hbound
      exact ⟨t, (issueAll_cons_next hfinal).trans hrun, hret.trans hrest⟩
    | sched => cases hlife
    | round => cases hlife
    | compress => cases hlife
    | pad => cases hlife

/-- A run that breaks the lifecycle comes to the command that breaks it, or is refused before (R168). -/
theorem issueAll_refused (is : List Instr) (s : State) (hreleased : s.resetLine = .released)
    (hwf : ∀ i ∈ is, i.wellFormed = true) (hlife : lifecycle s.phase is = false) : ∃ r, issueAll is s = .refused r := by
  induction is generalizing s with
  | nil => cases hlife
  | cons i is ih =>
    obtain ⟨hwf_i, hwf_is⟩ := List.forall_mem_cons.mp hwf
    cases i with
    | init =>
      obtain ⟨s1, hinit, hempty, hret⟩ := issue_init_holds hreleased
      rw [issueAll_cons_next hinit]
      exact ih s1 hret.resetLine hwf_is (hempty.active ▸ hlife)
    | update data =>
      by_cases hactive : s.phase = .active
      · by_cases hbound : s.bitCount.toNat + 8 * data.length < 2 ^ 64
        · obtain ⟨s1, hupdate, hsame, hret⟩ := issue_update_next hreleased hactive hbound
          have hphase : s1.phase = s.phase := hsame.phase.symm.trans (absorb_phase data s)
          rw [issueAll_cons_next hupdate]
          exact ih s1 hret.resetLine hwf_is (by simpa [lifecycle, hactive, hphase] using hlife)
        · exact ⟨_, issueAll_cons_refused (issue_update_overflow hreleased hwf_i hactive (Nat.not_lt.mp hbound))⟩
      · exact ⟨_, issueAll_cons_refused (issue_update_outside hreleased hwf_i hactive)⟩
    | final =>
      by_cases hactive : s.phase = .active
      · obtain ⟨s1, hfinal, hphase, -, hret⟩ := issue_final_next hreleased hactive
        rw [issueAll_cons_next hfinal]
        exact ih s1 hret.resetLine hwf_is (by simpa [lifecycle, hactive, hphase] using hlife)
      · exact ⟨_, issueAll_cons_refused (issue_final_outside hreleased hactive)⟩
    | sched => exact ⟨_, issueAll_cons_refused (issue_internal hreleased rfl hwf_i)⟩
    | round => exact ⟨_, issueAll_cons_refused (issue_internal hreleased rfl hwf_i)⟩
    | compress => exact ⟨_, issueAll_cons_refused (issue_internal hreleased rfl hwf_i)⟩
    | pad => exact ⟨_, issueAll_cons_refused (issue_internal hreleased rfl hwf_i)⟩

/-- A run that keeps the lifecycle and the length bound completes; outside ACTIVE the counter does not matter, for the
next command is INIT. -/
theorem issueAll_completes (is : List Instr) (bits : Nat) (s : State) (hreleased : s.resetLine = .released)
    (hbits : s.phase = .active → s.bitCount.toNat = bits) (hlife : lifecycle s.phase is = true)
    (hbound : withinBound bits is = true) : ∃ t, issueAll is s = .next t := by
  induction is generalizing bits s with
  | nil => exact ⟨s, rfl⟩
  | cons i is ih =>
    cases i with
    | init =>
      obtain ⟨s1, hinit, hempty, hret⟩ := issue_init_holds hreleased
      rw [issueAll_cons_next hinit]
      exact ih 0 s1 hret.resetLine (fun _ => hempty.count) (hempty.active ▸ hlife) hbound
    | update data =>
      obtain ⟨hactive, hlife⟩ := (lifecycle_update_iff _ _ _).mp hlife
      obtain rfl := hbits hactive
      obtain ⟨hlen, hbound⟩ := (withinBound_update_iff _ _ _).mp hbound
      obtain ⟨s1, hupdate, hsame, hret⟩ := issue_update_next hreleased hactive hlen
      have hphase : s1.phase = s.phase := hsame.phase.symm.trans (absorb_phase data s)
      rw [issueAll_cons_next hupdate]
      exact ih _ s1 hret.resetLine (fun _ => by rw [← hsame.bitCount, absorb_bitCount_toNat data s hlen])
        (by rwa [hphase]) hbound
    | final =>
      obtain ⟨hactive, hlife⟩ := (lifecycle_final_iff _ _).mp hlife
      obtain ⟨s1, hfinal, hphase, -, hret⟩ := issue_final_next hreleased hactive
      rw [issueAll_cons_next hfinal]
      exact ih 0 s1 hret.resetLine (fun h => by rw [hphase] at h; cases h) (hphase ▸ hlife) hbound
    | sched => cases hlife
    | round => cases hlife
    | compress => cases hlife
    | pad => cases hlife

end Sys2Proof.Machine

open Sys2Proof Sys2Proof.Machine

/-- Settles O47: INIT holds the empty message, UPDATE makes it `m`, FINAL digests it. -/
theorem hashReturnsMessageDigest : Obligations.HashReturnsMessageDigest := by
  intro m s hreleased hlen
  obtain ⟨t, hrun, hphase, hdout, hret⟩ := hostHash_returned m hreleased hlen
  exact ⟨t, hrun, hdout, hphase, hret.ports, hret.outcome⟩

/-- Settles O48: of 32 bytes the second pass reads the whole digest. -/
theorem doubleHashOf32BytesIsConventional : Obligations.DoubleHashOf32BytesIsConventional := by
  intro m s hreleased hlen
  obtain ⟨draw, t, hrun, hdout⟩ := hostDoubleHash_dout m hreleased (by rw [hlen]; decide)
  refine ⟨t, hrun, ?_⟩
  rw [hdout, hlen, secondPass_of_le _ _ le_rfl, List.take_of_length_le Vector.length_toList.le]

/-- Settles O49: of fewer bytes the second pass reads the first bytes of the digest. -/
theorem doubleHashOfShortMessageHashesPrefix : Obligations.DoubleHashOfShortMessageHashesPrefix := by
  intro m s hreleased hlen
  obtain ⟨draw, t, hrun, hdout⟩ := hostDoubleHash_dout m hreleased (hlen.trans (by decide))
  exact ⟨t, hrun, by rw [hdout, secondPass_of_le _ _ hlen.le]⟩

/-- Settles O50: of more bytes the second pass reads on behind the digest; the bytes there are a draw. -/
theorem doubleHashOfLongMessageOverreads : Obligations.DoubleHashOfLongMessageOverreads := by
  intro m s hreleased hlong hlen
  obtain ⟨draw, t, hrun, hdout⟩ := hostDoubleHash_dout m hreleased hlen
  have hdigest : (messageDigest m).toList.length ≤ m.length := Vector.length_toList.trans_le hlong.le
  refine ⟨(List.range (m.length - 32)).map (Config.overread draw m.length), t, ?length, hrun, ?digest⟩
  case length => rw [List.length_map, List.length_range]
  case digest => rw [hdout, secondPass_eq, List.take_of_length_le hdigest]

/-- Settles O53, by induction on the commands. -/
theorem conformingRunsReturnTheirDigests : Obligations.ConformingRunsReturnTheirDigests := by
  intro is m s hreleased hm hlife hbound
  obtain ⟨t, hrun, hret⟩ := issueAll_returned is m s hreleased hm hlife hbound
  exact ⟨t, hrun, hret.outcome, hret.ports⟩

/-- Settles O54, by induction on the commands in either case. -/
theorem lifecycleDecidesRefusal : Obligations.LifecycleDecidesRefusal := fun is s hreleased hwf =>
  ⟨issueAll_refused is s hreleased hwf, issueAll_completes is _ s hreleased fun _ => rfl⟩

end

section
/-!
PROOFS. The block buffer, the shifts, and the digits of the constants (R15, R16, R26, R27).
-/

namespace Sys2Proof.Machine

/-- The bytes written read back at their place (R16). -/
theorem memRead_memWrite_same (buf : Memory) (a : Nat) (v : List Byte) (h : a + v.length ≤ 64) :
    memRead (memWrite buf a v) a v.length = v := by
  apply List.ext_getElem (memRead_length _ _ _ h)
  intro j h1 h2
  have hoffset : a + j - a = j := Nat.add_sub_cancel_left _ _
  rw [memRead_getElem _ _ _ _ h h2, memWrite_inside _ _ _ _ _ (Nat.le_add_right _ _) (by omega)]
  simp only [hoffset]

/-- A range that does not overlap them reads as before. -/
theorem memRead_memWrite_disjoint (buf : Memory) (a : Nat) (v : List Byte) (b n : Nat) (h : b + n ≤ 64)
    (hdisjoint : b + n ≤ a ∨ a + v.length ≤ b) : memRead (memWrite buf a v) b n = memRead buf b n := by
  apply List.ext_getElem ((memRead_length _ _ _ h).trans (memRead_length _ _ _ h).symm)
  intro j h1 h2
  rw [memRead_length _ _ _ h] at h1
  rw [memRead_getElem _ _ _ _ h h1, memRead_getElem _ _ _ _ h h1, memWrite_outside _ _ _ _ _ (by omega)]

/-- A number below `18 * 18` with a proper divisor has one below 18. -/
theorem no_divisor_iff_no_divisor_below {p : Nat} (hp : p < 18 * 18) :
    (∀ d ∈ List.range p, 2 ≤ d → ¬ d ∣ p) ↔ ∀ d ∈ List.range 18, 2 ≤ d → d < p → ¬ d ∣ p := by
  simp only [List.mem_range]
  refine ⟨fun h d _ hd hdp => h d hdp hd, fun h d hdp hd hdvd => ?_⟩
  rcases Nat.lt_or_ge d 18 with hsmall | hlarge
  · exact h d hsmall hd hdp hdvd
  · obtain ⟨e, rfl⟩ := hdvd
    have he : 1 < e := Nat.lt_of_mul_lt_mul_left (a := d) (by omega)
    have he18 : e < 18 := Nat.lt_of_mul_lt_mul_left (a := 18) ((Nat.mul_le_mul_right e hlarge).trans_lt hp)
    exact h e he18 he (lt_mul_of_one_lt_left (by omega) (by omega)) (Nat.dvd_mul_left e d)

/-- The primes of R26 and R27, written out. -/
theorem smallPrimes_eq : smallPrimes =
    [2, 3, 5, 7, 11, 13, 17, 19, 23, 29, 31, 37, 41, 43, 47, 53, 59, 61, 67, 71, 73, 79, 83, 89, 97, 101, 103, 107,
     109, 113, 127, 131, 137, 139, 149, 151, 157, 163, 167, 173, 179, 181, 191, 193, 197, 199, 211, 223, 227, 229,
     233, 239, 241, 251, 257, 263, 269, 271, 277, 281, 283, 293, 307, 311] := by
  have htest : smallPrimes = (List.range 312).filter fun p =>
      decide (2 ≤ p ∧ ∀ d ∈ List.range 18, 2 ≤ d → d < p → ¬ d ∣ p) :=
    List.filter_congr fun p hp => decide_eq_decide.mpr <| and_congr_right fun _ =>
      no_divisor_iff_no_divisor_below ((List.mem_range.mp hp).trans (by decide))
  rw [htest]
  decide

/-- The integer part of the `k`-th root of a number below `18 ^ k`. -/
def integerRoot (k p : Nat) : Nat := (List.range 17).countP fun a => (a + 1) ^ k ≤ p

/-- A root with 32 fractional bits: its integer part, and the word `w` behind the point. -/
def rootWithFraction (k p : Nat) (w : Word) : Nat := integerRoot k p * 2 ^ 32 + w.toNat

/-- The low 32 bits are the fraction. -/
theorem ofNat_rootWithFraction (k p : Nat) (w : Word) : BitVec.ofNat 32 (rootWithFraction k p w) = w := by
  apply BitVec.eq_of_toNat_eq
  rw [BitVec.toNat_ofNat, rootWithFraction, Nat.mul_add_mod_self_right, Nat.mod_eq_of_lt w.isLt]

/-- The square roots of the first eight primes, rounded down to 32 fractional bits, have the words of `IV` behind the
point (R26). -/
theorem IV_squareRoots (j : Fin 8) :
    rootWithFraction 2 (smallPrimes.getD j.val 0) IV[j] ^ 2 ≤ smallPrimes.getD j.val 0 * 2 ^ 64 ∧
      smallPrimes.getD j.val 0 * 2 ^ 64 < (rootWithFraction 2 (smallPrimes.getD j.val 0) IV[j] + 1) ^ 2 := by
  rw [smallPrimes_eq]
  revert j
  decide

/-- The cube roots of the 64 primes, in the same way, have the words of `K` (R27). -/
theorem K_cubeRoots (i : Fin 64) :
    rootWithFraction 3 (smallPrimes.getD i.val 0) K[i] ^ 3 ≤ smallPrimes.getD i.val 0 * 2 ^ 96 ∧
      smallPrimes.getD i.val 0 * 2 ^ 96 < (rootWithFraction 3 (smallPrimes.getD i.val 0) K[i] + 1) ^ 3 := by
  rw [smallPrimes_eq]
  revert i
  decide

end Sys2Proof.Machine

open Sys2Proof Sys2Proof.Machine

/-- Settles O30, by the bits of the two operators. -/
theorem rotateAndShiftMoveBits : Obligations.RotateAndShiftMoveBits := by
  intro x n i hi
  refine ⟨fun _ hn => rotr_getLsbD x (by omega) hi, fun hn => ?_⟩
  have hbit : i < 32 - n ↔ i + n < 32 := by omega
  rw [shr_getLsbD, decide_eq_decide.mpr hbit]
  split
  · rw [decide_eq_true ‹_›, Bool.true_and]
  · rw [decide_eq_false ‹_›, Bool.false_and]

/-- Settles O31: each root is an integer part and the word of the table behind the point. -/
theorem constantsAreRootsOfPrimes : Obligations.ConstantsAreRootsOfPrimes := by
  refine ⟨by rw [smallPrimes_eq]; rfl, fun j => ?square, fun i => ?cube⟩
  case square =>
    obtain ⟨hle, hlt⟩ := IV_squareRoots j
    exact ⟨_, hle, hlt, (ofNat_rootWithFraction _ _ _).symm⟩
  case cube =>
    obtain ⟨hle, hlt⟩ := K_cubeRoots i
    exact ⟨_, hle, hlt, (ofNat_rootWithFraction _ _ _).symm⟩

/-- Settles O35. -/
theorem bufferReadAfterWrite : Obligations.BufferReadAfterWrite := fun buf a v h =>
  ⟨memRead_memWrite_same buf a v h, memRead_memWrite_disjoint buf a v⟩

end
